-- ==== Sys2Proof/Word.lean ====
section
/-! DEFINITION. The word types of WDT-CORE: the 32-bit register and data word (20_memory.md R36), the 4-bit byte
offset inside the window (R30), the 6-bit bus command (30_encoding.md R46), and the byte of the host's framing. -/

namespace Sys2Proof

/-- A register, and the data port: 32 bits (R6 `REG_WIDTH`, R36). -/
abbrev Word := BitVec 32

/-- One byte, used only where a command is laid out as bytes for the host. -/
abbrev Byte := BitVec 8

/-- A byte offset inside the 16-byte window, the pins `addr[3:0]` (R30, R31). -/
abbrev Offset := BitVec 4

/-- A bus command `{sel, we, addr[3:0]}` (R46). -/
abbrev Cmd := BitVec 6

end Sys2Proof
end

