-- ==== Sys2Proof/Syntax.lean ====
section
/-! DEFINITION. The operations of the block (30_encoding.md R45): one constructor of `Instr` per mnemonic of
spec/opcode_table.json, and the names of the four bus-visible registers (10_state.md R11). -/

namespace Sys2Proof

/-- The four bus-visible registers (R11). -/
inductive RegName where
  | control
  | reload
  | count
  | ack
  deriving DecidableEq, Repr

/-- The fifteen operations (R45). Ten are selected by a bus command, IDLE by the command that selects nothing, and
ADVANCE, TICK, EXPIRE and RESET have no encoding (R56). An unmapped access carries the offset of its request, a write
its 32-bit `wdata`; pins a rule does not examine are no operands. -/
inductive Instr where
  /-- IDLE: no request (R48). -/
  | idle
  /-- RD_CONTROL (R60). -/
  | rdControl
  /-- RD_RELOAD (R61). -/
  | rdReload
  /-- RD_COUNT (R62). -/
  | rdCount
  /-- RD_ACK: the invalid read of the write-only register (R63). -/
  | rdAck
  /-- RD_UNMAPPED at one of the twelve unmapped offsets (R64). -/
  | rdUnmapped (addr : Offset)
  /-- WR_CONTROL (R68). -/
  | wrControl (v : Word)
  /-- WR_RELOAD (R71). -/
  | wrReload (v : Word)
  /-- WR_COUNT (R72). -/
  | wrCount (v : Word)
  /-- WR_ACK; the value is ignored (R73). -/
  | wrAck (v : Word)
  /-- WR_UNMAPPED at one of the twelve unmapped offsets; the value is ignored (R74). -/
  | wrUnmapped (addr : Offset) (v : Word)
  /-- ADVANCE: one clock cycle of the tick generator (R88). -/
  | advance
  /-- TICK: one decrement and zero test (R89). -/
  | tick
  /-- EXPIRE: the dispatcher (R96). -/
  | expire
  /-- RESET: selected by the `rst` pin (R131). -/
  | reset
  deriving DecidableEq, Repr

namespace Instr

/-- The operation's mnemonic in spec/opcode_table.json. -/
def mnemonic : Instr → String
  | .idle           => "IDLE"
  | .rdControl      => "RD_CONTROL"
  | .rdReload       => "RD_RELOAD"
  | .rdCount        => "RD_COUNT"
  | .rdAck          => "RD_ACK"
  | .rdUnmapped _   => "RD_UNMAPPED"
  | .wrControl _    => "WR_CONTROL"
  | .wrReload _     => "WR_RELOAD"
  | .wrCount _      => "WR_COUNT"
  | .wrAck _        => "WR_ACK"
  | .wrUnmapped _ _ => "WR_UNMAPPED"
  | .advance        => "ADVANCE"
  | .tick           => "TICK"
  | .expire         => "EXPIRE"
  | .reset          => "RESET"

/-- Is the operation selected by a bus command (R45)? The four internal ones are not (R56). -/
def isBus : Instr → Bool
  | .idle | .rdControl | .rdReload | .rdCount | .rdAck | .rdUnmapped _
  | .wrControl _ | .wrReload _ | .wrCount _ | .wrAck _ | .wrUnmapped _ _ => true
  | .advance | .tick | .expire | .reset => false

/-- Is the operation one of the five reads (40_register_reads.md)? -/
def isRead : Instr → Bool
  | .rdControl | .rdReload | .rdCount | .rdAck | .rdUnmapped _ => true
  | .idle | .wrControl _ | .wrReload _ | .wrCount _ | .wrAck _ | .wrUnmapped _ _
  | .advance | .tick | .expire | .reset => false

/-- Is the operation one of the five writes (41_register_writes.md)? -/
def isWrite : Instr → Bool
  | .wrControl _ | .wrReload _ | .wrCount _ | .wrAck _ | .wrUnmapped _ _ => true
  | .idle | .rdControl | .rdReload | .rdCount | .rdAck | .rdUnmapped _
  | .advance | .tick | .expire | .reset => false

/-- Does a bus operation leave the count and the tick period alone? All do but WR_CONTROL and WR_COUNT (R138). -/
def isQuiet : Instr → Bool
  | .idle | .rdControl | .rdReload | .rdCount | .rdAck | .rdUnmapped _
  | .wrReload _ | .wrAck _ | .wrUnmapped _ _ => true
  | .wrControl _ | .wrCount _ | .advance | .tick | .expire | .reset => false

end Instr

end Sys2Proof
end

