-- ==== Sys2Proof/WellFormed.lean ====
section
/-! DEFINITION. Which terms of `Instr` stand for an operation of the block: the offset of an unmapped access is one of
the twelve unmapped offsets, those with `addr[1:0] ≠ 0b00` (20_memory.md R30, R35; R64, R74). -/

namespace Sys2Proof

/-- The offset is one of the twelve that map to no register (R30). -/
def Offset.unmapped (a : Offset) : Bool := a.getLsbD 0 || a.getLsbD 1

/-- An unmapped access names an unmapped offset; every other term is well formed. -/
def Instr.wf : Instr → Bool
  | .rdUnmapped a   => Offset.unmapped a
  | .wrUnmapped a _ => Offset.unmapped a
  | .idle | .rdControl | .rdReload | .rdCount | .rdAck
  | .wrControl _ | .wrReload _ | .wrCount _ | .wrAck _
  | .advance | .tick | .expire | .reset => true

end Sys2Proof
end

