-- ==== Sys2Proof/Decode.lean ====
section
/-! DEFINITION. The bus command and its decode (30_encoding.md R46, R47), total over all 64 commands; the table of R47
as data; the framing of a command and its data word as bytes for the host; and after them the encoder. -/

namespace Sys2Proof

/-- `sel`, bit 5 of the command (R46). -/
def cmdSel (c : Cmd) : Bool := c.getLsbD 5

/-- `we`, bit 4 of the command (R46). -/
def cmdWe (c : Cmd) : Bool := c.getLsbD 4

/-- `addr`, bits 3:0 of the command (R46). -/
def cmdAddr (c : Cmd) : Offset := c.extractLsb' 0 4

/-- `{sel, we, addr[3:0]}` (R46). -/
def mkCmd (sel we : Bool) (a : Offset) : Cmd := BitVec.ofBool sel ++ BitVec.ofBool we ++ a

/-- The byte offset of a register (R11, R30). -/
def RegName.offset : RegName → Offset
  | .control => 0x0#4
  | .reload  => 0x4#4
  | .count   => 0x8#4
  | .ack     => 0xC#4

/-- The register mapped at an offset; none at the twelve unmapped ones (R30, R35). -/
def regAt (a : Offset) : Option RegName :=
  if a = 0x0#4 then some .control
  else if a = 0x4#4 then some .reload
  else if a = 0x8#4 then some .count
  else if a = 0xC#4 then some .ack
  else none

/-- The read of a register (R47). -/
def RegName.readOp : RegName → Instr
  | .control => .rdControl
  | .reload  => .rdReload
  | .count   => .rdCount
  | .ack     => .rdAck

/-- The write of `v` to a register (R47). -/
def RegName.writeOp (v : Word) : RegName → Instr
  | .control => .wrControl v
  | .reload  => .wrReload v
  | .count   => .wrCount v
  | .ack     => .wrAck v

/-- A read at offset `a` (R47, rows with `sel = 1`, `we = 0`). -/
def decodeRead (a : Offset) : Instr :=
  match regAt a with
  | some r => r.readOp
  | none   => .rdUnmapped a

/-- A write of `v` at offset `a` (R47, rows with `sel = 1`, `we = 1`). -/
def decodeWrite (a : Offset) (v : Word) : Instr :=
  match regAt a with
  | some r => r.writeOp v
  | none   => .wrUnmapped a v

/-- Decode of the bus command with the data word beside it, complete over all 64 commands (R47). With `sel = 0` nothing
else is examined (R48); a read does not examine `wdata` (R31). -/
def decodeCmd (c : Cmd) (wdata : Word) : Instr :=
  if cmdSel c then
    if cmdWe c then decodeWrite (cmdAddr c) wdata else decodeRead (cmdAddr c)
  else .idle

/-! ## The table of R47 as data -/

/-- One row of R47 and of spec/opcode_table.json: the command matches when `cmd & mask = pattern`. -/
structure OpcodeRow where
  mnemonic : String
  pattern  : Cmd
  mask     : Cmd
  deriving DecidableEq, Repr

/-- Does the row select the command? -/
def OpcodeRow.matchesCmd (r : OpcodeRow) (c : Cmd) : Bool := decide (c &&& r.mask = r.pattern)

/-- The thirteen rows of R47, in its order. -/
def opcodeRows : List OpcodeRow :=
  [ ⟨"IDLE",        0x00#6, 0x20#6⟩
  , ⟨"RD_CONTROL",  0x20#6, 0x3F#6⟩
  , ⟨"RD_RELOAD",   0x24#6, 0x3F#6⟩
  , ⟨"RD_COUNT",    0x28#6, 0x3F#6⟩
  , ⟨"RD_ACK",      0x2C#6, 0x3F#6⟩
  , ⟨"RD_UNMAPPED", 0x21#6, 0x31#6⟩
  , ⟨"RD_UNMAPPED", 0x22#6, 0x33#6⟩
  , ⟨"WR_CONTROL",  0x30#6, 0x3F#6⟩
  , ⟨"WR_RELOAD",   0x34#6, 0x3F#6⟩
  , ⟨"WR_COUNT",    0x38#6, 0x3F#6⟩
  , ⟨"WR_ACK",      0x3C#6, 0x3F#6⟩
  , ⟨"WR_UNMAPPED", 0x31#6, 0x31#6⟩
  , ⟨"WR_UNMAPPED", 0x32#6, 0x33#6⟩ ]

/-! ## Bytes

The block's port carries a 6-bit command and a 32-bit word, no bytes (R34). For the host a bus operation is five bytes:
the command in bits 5:0 of the first with bits 7:6 zero, then `wdata`, little-endian as R34 writes byte views.
DESIGN CHOICE, log 8. -/

/-- Why bytes are no bus operation. -/
inductive DecodeError where
  /-- Fewer than five bytes. -/
  | truncated
  /-- The first byte has bit 7 or 6 set: no 6-bit command. -/
  | notASixBitCommand
  deriving DecidableEq, Repr

/-- Total on any bytes: the operation and the bytes after it, or a rejection by name. -/
def decodeBytes : List Byte → Except DecodeError (Instr × List Byte)
  | b :: w0 :: w1 :: w2 :: w3 :: rest =>
    if b.extractLsb' 6 2 = 0#2 then
      .ok (decodeCmd (b.extractLsb' 0 6) (w3 ++ w2 ++ w1 ++ w0), rest)
    else .error .notASixBitCommand
  | _ => .error .truncated

/-- The five bytes of the number `x`, least significant first. -/
def fiveBytes (x : Nat) : List Byte :=
  [BitVec.ofNat 8 x, BitVec.ofNat 8 (x >>> 8), BitVec.ofNat 8 (x >>> 16), BitVec.ofNat 8 (x >>> 24),
    BitVec.ofNat 8 (x >>> 32)]

/-- What the decoder reads from the operation whose bits are `w`, numbered as spec/opcode_table.json numbers them (the
command in bits 5:0), with every bit from `nbits` on zero. A number that needs more than the five bytes is none. -/
def decodeTableWord (nbits w : Nat) : Option Instr :=
  let x := w % 2 ^ nbits
  if x < 2 ^ 40 then
    match decodeBytes (fiveBytes x) with
    | .ok (i, _) => some i
    | .error _   => none
  else none

/-! ## Encoding -/

/-- The command and data word of an operation (R47); none for the four internal operations, which have no encoding
(R56). Pins that are not examined are 0. -/
def encode : Instr → Option (Cmd × Word)
  | .idle           => some (mkCmd false false 0x0#4, 0#32)
  | .rdControl      => some (mkCmd true false (RegName.offset .control), 0#32)
  | .rdReload       => some (mkCmd true false (RegName.offset .reload), 0#32)
  | .rdCount        => some (mkCmd true false (RegName.offset .count), 0#32)
  | .rdAck          => some (mkCmd true false (RegName.offset .ack), 0#32)
  | .rdUnmapped a   => some (mkCmd true false a, 0#32)
  | .wrControl v    => some (mkCmd true true (RegName.offset .control), v)
  | .wrReload v     => some (mkCmd true true (RegName.offset .reload), v)
  | .wrCount v      => some (mkCmd true true (RegName.offset .count), v)
  | .wrAck v        => some (mkCmd true true (RegName.offset .ack), v)
  | .wrUnmapped a v => some (mkCmd true true a, v)
  | .advance        => none
  | .tick           => none
  | .expire         => none
  | .reset          => none

/-- The five bytes of a command and its data word. -/
def cmdBytes (c : Cmd) (v : Word) : List Byte :=
  [c.zeroExtend 8, v.extractLsb' 0 8, v.extractLsb' 8 8, v.extractLsb' 16 8, v.extractLsb' 24 8]

/-- The five bytes of an operation; none for the internal ones. -/
def encodeBytes (i : Instr) : Option (List Byte) := (encode i).map fun cv => cmdBytes cv.1 cv.2

end Sys2Proof
end

