-- ==== Sys2Proof/Config.lean ====
section
/-! DEFINITION. The implementation parameters of 00_scope.md R6: the fixed ones as constants, the OPEN ones as the
record `Params`, and the one free value (the level of `rdata` where the spec leaves it unspecified). -/

namespace Sys2Proof.Config

/-- `BASE_CLK_HZ`, hertz of the base clock (R6; the literal is unaudited, 93 U9). No behaviour depends on it. -/
def baseClkHz : Nat := 24000000

/-- `REG_WIDTH` (R6). -/
def regWidth : Nat := 32

/-- `WINDOW_BYTES` (R6, R30). -/
def windowBytes : Nat := 16

/-- `PRESCALER_WIDTH` (R6). -/
def prescalerWidth : Nat := 8

/-- `DIVSEL_WIDTH` (R6). -/
def divselWidth : Nat := 2

/-- `DIVCNT_WIDTH`, derived in R6 from the largest period 2^15 (R20). -/
def divcntWidth : Nat := 15

/-- `DIV_TABLE`: divider-select code to divider value, `00→16, 01→32, 10→64, 11→128` (R6). -/
def divTable (code : BitVec 2) : Nat :=
  if code = 0 then 16 else if code = 1 then 32 else if code = 2 then 64 else 128

/-- The level of the `rdata` pins in the cycle after edge `k` when that edge sampled no read: unspecified (R33, 93 U4
"any value"). A free value: no body, so nothing can be proved about it. Log 5. -/
opaque unspecifiedRdata : Nat → Word

end Sys2Proof.Config

namespace Sys2Proof

/-- `DIV_DECODE`, OPEN (R6, decision D13): decode by `DIV_TABLE`, or every code to 16. -/
inductive DivDecode where
  | fourWay
  | collapsed
  deriving DecidableEq, Repr

/-- The OPEN parameters of R6, "the model takes them as arguments" (decisions D9 and D13). They travel in `State`, which
no step writes, so that a statement about every state is a statement about every value of them. Log 2. -/
structure Params where
  divDecode    : DivDecode
  resetControl : Word
  resetReload  : Word
  resetCount   : Word
  deriving DecidableEq, Repr

namespace Params

/-- The one constraint the source puts on the parameters: `RESET_CONTROL` has bit 5 (enable) and bit 0 (reset-enable)
set (R6, R26). -/
def wf (p : Params) : Bool := p.resetControl.getLsbD 5 && p.resetControl.getLsbD 0

/-- The instance `State.reset` carries: the spec's default `DIV_DECODE` (R6; log 4) and its suggested reset values
(93 G1, from general knowledge: PRESUMED, the S3C family's; unsafe; log 3). -/
def default : Params where
  divDecode    := .fourWay
  resetControl := 0x00008021#32
  resetReload  := 0x00008000#32
  resetCount   := 0x00008000#32

end Params

end Sys2Proof
end

