-- ==== Sys2Proof/Machine/State.lean ====
section
/-! DEFINITION. The state of WDT-CORE as plain data: the seven fields `S` of 10_state.md R10 (`Wdt`), the output latches
(45_cycle_step.md R108), the parameters (00_scope.md R6), and the model's own input list and edge number. -/

namespace Sys2Proof.Machine

/-- The whole state `S` of the block, the seven fields of R10 "and nothing else". -/
structure Wdt where
  /-- CONTROL, the last value written (R14, R15). -/
  control : Word
  /-- RELOAD (R16). -/
  reload  : Word
  /-- COUNT, the live counter (R17). -/
  count   : Word
  /-- 1 while the engine counts (R19). -/
  running : Bool
  /-- Clock cycles elapsed in the current tick period (R20). -/
  divcnt  : BitVec 15
  /-- Level of the interrupt output (R21). -/
  irq     : Bool
  /-- Level of the reset-request output in this cycle, the spec's `rst_req` (R22). -/
  rstReq  : Bool
  deriving DecidableEq, Repr

/-- The diagnostic of the request sampled at the last edge (60_exceptions.md R113). -/
inductive Diag where
  /-- Code 0: no error. -/
  | noError
  /-- Code 1, `DIAG_RD_ACK`: read of the write-only ACK register. -/
  | rdAck
  /-- Code 2, `DIAG_RD_UNMAPPED`: read at an unmapped offset. -/
  | rdUnmapped
  /-- Code 3, `DIAG_WR_UNMAPPED`: write at an unmapped offset. -/
  | wrUnmapped
  deriving DecidableEq, Repr

/-- The output `out = (rdata, diag)` of a step (R104), held on the pins until the next edge (R108). `rdata` is `none`
where the spec leaves it unspecified (R33, 93 U4: "a model returns no read data for these steps"); log 5. -/
structure BusOut where
  rdata : Option Word
  diag  : Diag
  deriving DecidableEq, Repr

/-- What the input pins carry at one edge: the `in = (rst, cmd, wdata)` of R104. -/
structure PinsIn where
  rst   : Bool
  cmd   : Cmd
  wdata : Word
  deriving DecidableEq, Repr

/-- The machine: the block's state, its output latches, what the pins carry at the coming edges (oldest first; the
model's own, log 1), how many edges have been taken (the model's own, log 6), and the parameters (never written, log 2). -/
structure State where
  wdt    : Wdt
  out    : BusOut
  inputs : List PinsIn
  edge   : Nat
  params : Params
  deriving DecidableEq, Repr

/-- The reasons a step could stop with a fault. There are none: "there is no stuck state and no fault state" (R112), and
"nothing in the block faults, traps or returns a bus error" (R52). -/
inductive Fault where
  deriving DecidableEq, Repr

/-- The reasons a step could be refused. -/
inductive Refusal where
  /-- Raised by an arm of `exec` whose instruction has no meaning yet (no arm does); safe. -/
  | notModelled (mnemonic : String)
  deriving DecidableEq, Repr

/-- The block right after a reset with the parameters `p` (R26). -/
def Wdt.afterReset (p : Params) : Wdt where
  control := p.resetControl
  reload  := p.resetReload
  count   := p.resetCount
  running := false
  divcnt  := 0#15
  irq     := false
  rstReq  := false

/-- The machine right after a reset, for any parameters and any coming inputs: `rdata` unspecified, `diag` 0 (R129). -/
def State.afterReset (p : Params) (ins : List PinsIn) : State where
  wdt    := Wdt.afterReset p
  out    := ⟨none, .noError⟩
  inputs := ins
  edge   := 1
  params := p

/-- The machine right after reset, with the default parameters (log 3, log 4) and nothing presented (log 1). -/
def State.reset : State := State.afterReset Params.default []

end Sys2Proof.Machine
end

