-- ==== Sys2Proof/Machine/Operands.lean ====
section
/-! DEFINITION. The fields of a CONTROL word (30_encoding.md R50), the divider decode (R51), the tick period and
frequency (42_frequency_engine.md R78, R80): pure functions of CONTROL and the parameter `DIV_DECODE`. -/

namespace Sys2Proof.Machine

/-- `Prescaler(c) = c[15:8]` (R50). -/
def prescaler (c : Word) : BitVec 8 := c.extractLsb' 8 8

/-- `En(c) = c[5]` (R50). -/
def en (c : Word) : Bool := c.getLsbD 5

/-- `DivSel(c) = c[4:3]` (R50). -/
def divSel (c : Word) : BitVec 2 := c.extractLsb' 3 2

/-- `IrqEn(c) = c[2]` (R50). -/
def irqEn (c : Word) : Bool := c.getLsbD 2

/-- `RstEn(c) = c[0]` (R50). -/
def rstEn (c : Word) : Bool := c.getLsbD 0

/-- The mask of all documented bits of CONTROL (R50). -/
def documentedMask : Word := 0x0000FF3D#32

/-- `Divider(c)`: by `DIV_TABLE`, or 16 for every code (R51, R77). -/
def divider (d : DivDecode) (c : Word) : Nat :=
  match d with
  | .fourWay   => Config.divTable (divSel c)
  | .collapsed => 16

/-- The tick period `N(c) = (Prescaler(c) + 1) × Divider(c)` in clock cycles, over the naturals (R78, R79). -/
def period (d : DivDecode) (c : Word) : Nat := ((prescaler c).toNat + 1) * divider d c

/-- The exact tick frequency `BASE_CLK_HZ / N(c)` in hertz (R80). -/
def freqExact (d : DivDecode) (c : Word) : ℚ := (Config.baseClkHz : ℚ) / (period d c : ℚ)

/-- `FreqHz(c)`, the integer part of the tick frequency (R80); no behaviour uses it. -/
def freqHz (d : DivDecode) (c : Word) : Nat := Config.baseClkHz / period d c

/-- Virtual time after `n` edges, in seconds (R111). -/
def virtualTime (n : Nat) : ℚ := (n : ℚ) / (Config.baseClkHz : ℚ)

end Sys2Proof.Machine
end

