-- ==== Sys2Proof/Machine/Flags.lean ====
section
/-! DEFINITION. The three one-bit flags of the block (10_state.md R13), what sets and clears each, the transition of the
stored enable bit (41_register_writes.md R68), and the codes of the diagnostics (60_exceptions.md R113). -/

namespace Sys2Proof.Machine

namespace Wdt

/-- `S.irq <- 1`; done by EXPIRE in interrupt mode only (R13, R97). -/
def setIrq (w : Wdt) : Wdt := { w with irq := true }

/-- `S.irq <- 0`; done by WR_ACK and RESET only (R13, R73). -/
def clearIrq (w : Wdt) : Wdt := { w with irq := false }

/-- `S.rst_req <- 1`; done by EXPIRE in reset mode only (R13, R98). -/
def setRstReq (w : Wdt) : Wdt := { w with rstReq := true }

/-- `S.rst_req <- 0`; done at the next edge and by RESET (R13, R104). -/
def clearRstReq (w : Wdt) : Wdt := { w with rstReq := false }

end Wdt

/-- What a CONTROL write does to the stored enable bit (R68). -/
inductive EnableEdge where
  /-- 0→1: load and start. -/
  | rises
  /-- 1→0: stop. -/
  | falls
  /-- 0→0 or 1→1. -/
  | stays
  deriving DecidableEq, Repr

/-- The transition from the stored CONTROL `old` to the written `v`, judged on bit 5 alone (R68, R69 (a)). -/
def enableEdge (old v : Word) : EnableEdge :=
  match en old, en v with
  | false, true  => .rises
  | true,  false => .falls
  | false, false => .stays
  | true,  true  => .stays

/-- The 2-bit code on the `diag` pins (R113). -/
def Diag.code : Diag → BitVec 2
  | .noError    => 0#2
  | .rdAck      => 1#2
  | .rdUnmapped => 2#2
  | .wrUnmapped => 3#2

end Sys2Proof.Machine
end

