-- ==== Sys2Proof/Machine/Ops.lean ====
section
/-! DEFINITION. The shared operations: the engine's primitives (43_countdown_engine.md R85 to R87), the expiry dispatcher
and the acknowledge (44_expiry_dispatcher.md R96; R118 and R119 call them the block's trap entry and trap return), the
tick generator (R88, R89), reset (R131), the time phase (45_cycle_step.md R106), the replies of the bus phase
(R33), and the pins. -/

namespace Sys2Proof.Machine

/-! ## Requests of the bus master -/

/-- The pins of an edge that carries a command (R32). -/
def PinsIn.command (c : Cmd) (v : Word) : PinsIn := ⟨false, c, v⟩

/-- `MemRead(a, 4)`: a request with `we = 0` (R33). -/
def PinsIn.memRead (a : Offset) : PinsIn := .command (mkCmd true false a) 0#32

/-- `MemWrite(a, 4, v)`: a request with `we = 1` (R33). -/
def PinsIn.memWrite (a : Offset) (v : Word) : PinsIn := .command (mkCmd true true a) v

/-- An edge with no request (R48). -/
def PinsIn.idle : PinsIn := .command 0#6 0#32

/-- An edge with reset asserted; the other pins are not examined (R131). -/
def PinsIn.reset : PinsIn := ⟨true, 0#6, 0#32⟩

/-- The operation the pins select at an edge: RESET when `rst = 1`, otherwise the decoded command (R45, R56, R107). -/
def PinsIn.operation (i : PinsIn) : Instr := if i.rst then .reset else decodeCmd i.cmd i.wdata

namespace Wdt

/-! ## The engine's primitives -/

/-- `SetFrequency`: the period follows the stored CONTROL, and the tick period restarts (R85). -/
def setControl (w : Wdt) (v : Word) : Wdt := { w with control := v, divcnt := 0#15 }

/-- `SetCount(S, v)` (R86). It neither starts nor stops the engine. -/
def setCount (w : Wdt) (v : Word) : Wdt := { w with count := v, divcnt := 0#15 }

/-- `GetCount(S)`, valid whether running or stopped (R86). -/
def getCount (w : Wdt) : Word := w.count

/-- `Start(S)` (R87). It does not load the count. -/
def start (w : Wdt) : Wdt := { w with running := true, divcnt := 0#15 }

/-- `Stop(S)` (R87). It keeps the count. -/
def stop (w : Wdt) : Wdt := { w with running := false }

/-- `S.reload <- v` (R71). -/
def setReload (w : Wdt) (v : Word) : Wdt := { w with reload := v }

/-! ## The event the block raises, and its acknowledge -/

/-- Outcome 1 of EXPIRE, the block's "trap entry" (R97, R118): assert the line, reload the count, restart the engine.
Nothing is saved, no mode changes, there is no vector. -/
def enterInterrupt (w : Wdt) : Wdt := (w.setIrq.setCount w.reload).start

/-- Outcome 2 of EXPIRE: pulse the reset request; the engine stays stopped, the count stays 0 (R98). -/
def requestReset (w : Wdt) : Wdt := w.setRstReq

/-- The block's "trap return": any ACK write lowers the line (R73, R119). -/
def acknowledge (w : Wdt) : Wdt := w.clearIrq

/-- EXPIRE, the dispatcher: interrupt mode before reset mode; the enable bit is not read (R96, R100). -/
def expire (w : Wdt) : Wdt :=
  if irqEn w.control then w.enterInterrupt
  else if rstEn w.control then w.requestReset
  else w

/-! ## The tick generator -/

/-- The decrement of TICK: a zero count is not decremented (R89, R94). -/
def decrement (w : Wdt) : Wdt := if w.count = 0#32 then w else { w with count := w.count - 1#32 }

/-- The zero test of TICK: at zero the engine stops itself, then the dispatcher acts (R89, R90). -/
def zeroTest (w : Wdt) : Wdt := if w.count = 0#32 then w.stop.expire else w

/-- TICK (R89). -/
def tick (w : Wdt) : Wdt := w.decrement.zeroTest

/-- Has the tick period run out at this cycle? The test of ADVANCE, `>=` so that it is total on any state (R88). -/
def tickDue (d : DivDecode) (w : Wdt) : Bool := decide (period d w.control ≤ w.divcnt.toNat + 1)

/-- ADVANCE, one clock cycle of the tick generator (R88). -/
def advance (d : DivDecode) (w : Wdt) : Wdt :=
  if w.tickDue d then tick { w with divcnt := 0#15 }
  else { w with divcnt := w.divcnt + 1#15 }

/-- The two first actions of an edge without reset: the `rst_req` pulse ends, then time passes if the engine runs
(R104, R105 (2) and (3), R106). -/
def timePhase (d : DivDecode) (w : Wdt) : Wdt :=
  if w.running then advance d w.clearRstReq else w.clearRstReq

/-- RESET on the block's state: every field to its reset value, whatever it was (R131). -/
def resetTo (p : Params) (_w : Wdt) : Wdt where
  control := p.resetControl
  reload  := p.resetReload
  count   := p.resetCount
  irq     := false
  rstReq  := false
  divcnt  := 0#15
  running := false

/-! ## CONTROL and COUNT writes -/

/-- The effect of WR_CONTROL on the engine's count and running flag, before the store (R68). -/
def onEnableEdge (w : Wdt) (e : EnableEdge) : Wdt :=
  match e with
  | .rises => (w.setCount w.reload).start
  | .falls => w.stop
  | .stays => w

/-- WR_CONTROL: act on the enable transition, store all 32 bits, restart the tick period (R68, R70). -/
def writeControl (w : Wdt) (v : Word) : Wdt := (w.onEnableEdge (enableEdge w.control v)).setControl v

/-- WR_COUNT: set the count; with the stored enable bit clear, force the engine stopped (R72). -/
def writeCount (w : Wdt) (v : Word) : Wdt :=
  if en w.control then w.setCount v else (w.setCount v).stop

end Wdt

namespace State

/-! ## The edge -/

/-- What the pins carry at the coming edge: the first listed input, and no request and no reset when none is listed
(DESIGN CHOICE, log 1). -/
def pinsNow (s : State) : PinsIn := s.inputs.headD .idle

/-- The edge is taken: its inputs are used up and the edges are counted on. -/
def takeEdge (s : State) : State := { s with inputs := s.inputs.tail, edge := s.edge + 1 }

/-- Apply a function to the block's state and leave the rest. -/
def onWdt (s : State) (f : Wdt → Wdt) : State := { s with wdt := f s.wdt }

/-- The time phase of the edge on the machine (R106). -/
def timePhase (s : State) : State := s.onWdt (Wdt.timePhase s.params.divDecode)

/-- Lay the pins of the coming edges out as `ins`. -/
def present (s : State) (ins : List PinsIn) : State := { s with inputs := ins }

/-! ## Replies -/

/-- The reply of a read: `rdata` and `diag` (R33). -/
def replyRead (s : State) (v : Word) (d : Diag) : State := { s with out := ⟨some v, d⟩ }

/-- The reply of a write or of an idle edge: `rdata` unspecified (R33, R67). -/
def replyNoData (s : State) (d : Diag) : State := { s with out := ⟨none, d⟩ }

end State

/-! ## The pins -/

/-- The output pins between two edges (R31, R108). -/
structure PinsOut where
  rdata  : Word
  diag   : BitVec 2
  irq    : Bool
  rstReq : Bool
  deriving DecidableEq, Repr

/-- What the output pins show: `rdata` and `diag` of the last edge, `irq` and `rst_req` of the state (R108). Where
`rdata` is unspecified it is the free value of that edge (R33; log 5). -/
def State.pins (s : State) : PinsOut where
  rdata  := s.out.rdata.getD (Config.unspecifiedRdata s.edge)
  diag   := s.out.diag.code
  irq    := s.wdt.irq
  rstReq := s.wdt.rstReq

end Sys2Proof.Machine
end

