-- ==== Sys2Proof/Machine/Idle.lean ====
section
/-! DEFINITION. IDLE, the bus command that selects nothing (30_encoding.md R48). -/

namespace Sys2Proof.Machine

/-- IDLE: no state changes, `diag` is 0, `rdata` is unspecified (R48). -/
def execIdle (s : State) : Host.Outcome State Fault Refusal := .next (s.replyNoData .noError)

end Sys2Proof.Machine
end

