-- ==== Sys2Proof/Machine/Internal.lean ====
section
/-! DEFINITION. The four operations without an encoding (30_encoding.md R56): ADVANCE, TICK, EXPIRE of the time phase,
and RESET of the `rst` pin. `exec` gives each its own pseudocode; when the first is performed is said by the step
(45_cycle_step.md R104, R106; log 10). -/

namespace Sys2Proof.Machine

/-- ADVANCE (43_countdown_engine.md R88). -/
def execAdvance (s : State) : Host.Outcome State Fault Refusal :=
  .next (s.onWdt (Wdt.advance s.params.divDecode))

/-- TICK (43_countdown_engine.md R89). -/
def execTick (s : State) : Host.Outcome State Fault Refusal := .next (s.onWdt Wdt.tick)

/-- EXPIRE (44_expiry_dispatcher.md R96). -/
def execExpire (s : State) : Host.Outcome State Fault Refusal := .next (s.onWdt Wdt.expire)

/-- RESET: every field to its reset value, `out <- (unspecified, 0)` (70_reset_and_hazards.md R131). -/
def execReset (s : State) : Host.Outcome State Fault Refusal :=
  .next ((s.onWdt (Wdt.resetTo s.params)).replyNoData .noError)

end Sys2Proof.Machine
end

