-- ==== Sys2Proof/Machine/Reads.lean ====
section
/-! DEFINITION. The five read operations (40_register_reads.md R60 to R64). A read changes no field of the block
(R65); its only outputs are `rdata` and `diag`. -/

namespace Sys2Proof.Machine

/-- RD_CONTROL: `rdata <- S.control; diag <- 0` (R60). -/
def execRdControl (s : State) : Host.Outcome State Fault Refusal := .next (s.replyRead s.wdt.control .noError)

/-- RD_RELOAD: `rdata <- S.reload; diag <- 0` (R61). -/
def execRdReload (s : State) : Host.Outcome State Fault Refusal := .next (s.replyRead s.wdt.reload .noError)

/-- RD_COUNT: `rdata <- GetCount(S); diag <- 0`, live (R62). -/
def execRdCount (s : State) : Host.Outcome State Fault Refusal := .next (s.replyRead s.wdt.getCount .noError)

/-- RD_ACK: `rdata <- 0`, `DIAG_RD_ACK`; `irq` is not lowered (R63). -/
def execRdAck (s : State) : Host.Outcome State Fault Refusal := .next (s.replyRead 0#32 .rdAck)

/-- RD_UNMAPPED: `rdata <- 0`, `DIAG_RD_UNMAPPED`; the offset is not rounded to a register (R64, R35). A term whose
offset is mapped is not well formed and comes from no decode; it answers alike (log 11). -/
def execRdUnmapped (_addr : Offset) (s : State) : Host.Outcome State Fault Refusal :=
  .next (s.replyRead 0#32 .rdUnmapped)

end Sys2Proof.Machine
end

