-- ==== Sys2Proof/Machine/Writes.lean ====
section
/-! DEFINITION. The five write operations (41_register_writes.md R67 to R75). -/

namespace Sys2Proof.Machine

/-- WR_CONTROL (R68 to R70). -/
def execWrControl (v : Word) (s : State) : Host.Outcome State Fault Refusal :=
  .next ((s.onWdt (·.writeControl v)).replyNoData .noError)

/-- WR_RELOAD: `S.reload <- v`; the live counter is untouched (R71). -/
def execWrReload (v : Word) (s : State) : Host.Outcome State Fault Refusal :=
  .next ((s.onWdt (·.setReload v)).replyNoData .noError)

/-- WR_COUNT (R72). -/
def execWrCount (v : Word) (s : State) : Host.Outcome State Fault Refusal :=
  .next ((s.onWdt (·.writeCount v)).replyNoData .noError)

/-- WR_ACK: `S.irq <- 0`, whatever the value (R73). -/
def execWrAck (_v : Word) (s : State) : Host.Outcome State Fault Refusal :=
  .next ((s.onWdt (·.acknowledge)).replyNoData .noError)

/-- WR_UNMAPPED: the write is dropped, `DIAG_WR_UNMAPPED` (R74). A term whose offset is mapped is not well formed and
comes from no decode; it answers alike (log 11). -/
def execWrUnmapped (_addr : Offset) (_v : Word) (s : State) : Host.Outcome State Fault Refusal :=
  .next (s.replyNoData .wrUnmapped)

end Sys2Proof.Machine
end

