-- ==== Sys2Proof/Machine/Dispatch.lean ====
section
/-! DEFINITION. The dispatch: one arm per operation, each one direct call of its meaning. -/

namespace Sys2Proof.Machine

/-- What one operation does to the machine: the bus phase of an edge for a bus command (R107), the pseudocode of its
rule for an internal operation. -/
def exec (i : Instr) (s : State) : Host.Outcome State Fault Refusal :=
  match i with
  | .idle => Sys2Proof.Machine.execIdle s
  | .rdControl => Sys2Proof.Machine.execRdControl s
  | .rdReload => Sys2Proof.Machine.execRdReload s
  | .rdCount => Sys2Proof.Machine.execRdCount s
  | .rdAck => Sys2Proof.Machine.execRdAck s
  | .rdUnmapped addr => Sys2Proof.Machine.execRdUnmapped addr s
  | .wrControl v => Sys2Proof.Machine.execWrControl v s
  | .wrReload v => Sys2Proof.Machine.execWrReload v s
  | .wrCount v => Sys2Proof.Machine.execWrCount v s
  | .wrAck v => Sys2Proof.Machine.execWrAck v s
  | .wrUnmapped addr v => Sys2Proof.Machine.execWrUnmapped addr v s
  | .advance => Sys2Proof.Machine.execAdvance s
  | .tick => Sys2Proof.Machine.execTick s
  | .expire => Sys2Proof.Machine.execExpire s
  | .reset => Sys2Proof.Machine.execReset s

end Sys2Proof.Machine
end

