-- ==== Sys2Proof/Machine/Step.lean ====
section
/-! DEFINITION. One rising edge of `clk` (45_cycle_step.md R104), and where the host places a command. -/

namespace Sys2Proof.Machine

/-- `Step` (R104). Reset overrides the edge. Otherwise the `rst_req` pulse ends, the time phase acts, and the bus command
is performed on the state the time phase left (R105). -/
def step (s : State) : Host.Outcome State Fault Refusal :=
  if s.pinsNow.rst then exec .reset s.takeEdge
  else exec (decodeCmd s.pinsNow.cmd s.pinsNow.wdata) s.takeEdge.timePhase

/-- The operation whose bits are `w` (the command in bits 5:0, `wdata` in bits 39:8; bits from `nbits` on are 0), on the
pins at the coming edge, with `rst = 0`. Log 8, log 9. -/
def State.withFetchWord (s : State) (nbits w : Nat) : State :=
  let x := w % 2 ^ nbits
  s.present (.command (BitVec.ofNat 6 x) (BitVec.ofNat 32 (x >>> 8)) :: s.inputs.tail)

end Sys2Proof.Machine
end

