-- ==== Sys2Proof/Machine/IdleTime.lean ====
section
/-! DEFINITION. Time in one step: the distance to the next expiry (10_state.md R12, 43_countdown_engine.md R95) and the
closed form `Idle(S, n)` (45_cycle_step.md R110). Neither is used by the step; that they agree with it is a statement. -/

namespace Sys2Proof.Machine

namespace Wdt

/-- The phase of a running engine in its tick period: `divcnt`, and `N − 1` where `divcnt ≥ N`. Such a state breaks R25 (b)
and comes only from a restore (93 U7); there the formulas of R95 and R110 and R110's clause that `Idle` "must equal `n`
applications of `Step`" disagree, and the model follows the clause: the coming edge ticks, as it does from cycle `N − 1`.
DESIGN CHOICE, log 23. -/
def phase (d : DivDecode) (w : Wdt) : Nat := min w.divcnt.toNat (period d w.control - 1)

/-- Edges to the next expiry of a running engine: `count × N − divcnt`, and `N − divcnt` for a zero count (R12, R95), with
`phase` for `divcnt` (log 23). -/
def toExpiry (d : DivDecode) (w : Wdt) : Nat := max w.count.toNat 1 * period d w.control - w.phase d

/-- The state `m` edges after the count was loaded with `c` and the tick period cleared, `m` less than the distance to
the expiry, or the state `m` edges further on from any phase: `count − floor(m / N)` and `m mod N` (R95). -/
def countedFrom (d : DivDecode) (w : Wdt) (c : Word) (m : Nat) : Wdt :=
  { w with
    count  := BitVec.ofNat 32 (c.toNat - m / period d w.control)
    divcnt := BitVec.ofNat 15 (m % period d w.control)
    rstReq := false }

/-- `Idle(S, n)`, the state after `n` edges with no request and no reset (R110). Where `divcnt ≥ N` while running, R110's
formula and its must-equal-`n`-`Step`s clause disagree and the model follows the clause (`phase`; DESIGN CHOICE, log 23). -/
def idleFor (d : DivDecode) (w : Wdt) (n : Nat) : Wdt :=
  if n = 0 then w
  else if !w.running then w.clearRstReq
  else if n < w.toExpiry d then w.countedFrom d w.count (w.phase d + n)
  else if irqEn w.control then
    w.setIrq.countedFrom d w.reload ((n - w.toExpiry d) % (max w.reload.toNat 1 * period d w.control))
  else
    { w with count := 0#32, divcnt := 0#15, running := false
             rstReq := rstEn w.control && decide (n = w.toExpiry d) }

end Wdt

/-- The machine after `n ≥ 0` idle edges, without iterating (R110). -/
def State.idleFor (s : State) (n : Nat) : State where
  wdt    := s.wdt.idleFor s.params.divDecode n
  out    := if n = 0 then s.out else ⟨none, .noError⟩
  inputs := s.inputs.drop n
  edge   := s.edge + n
  params := s.params

end Sys2Proof.Machine
end

