-- ==== Sys2Proof/Machine/Snapshot.lean ====
section
/-! DEFINITION. What a snapshot of the block holds (10_state.md R27): the seven fields, and the frequency the source's
list names, which is computed. The format, the order and the version are the platform's (00_scope.md R5 (d)). -/

namespace Sys2Proof.Machine

/-- The fields exposed to save and restore: the source's `control`, ACK-derived state (`irq`), `frequencyHz`, `running`,
`remaining` and `reloadValue`, and the spec's `divcnt` and `rst_req` (R27). -/
structure Snapshot where
  control : Word
  irq     : Bool
  freqHz  : Nat
  running : Bool
  count   : Word
  reload  : Word
  divcnt  : BitVec 15
  rstReq  : Bool
  deriving DecidableEq, Repr

/-- The snapshot of the block (R27). -/
def State.save (s : State) : Snapshot where
  control := s.wdt.control
  irq     := s.wdt.irq
  freqHz  := freqHz s.params.divDecode s.wdt.control
  running := s.wdt.running
  count   := s.wdt.count
  reload  := s.wdt.reload
  divcnt  := s.wdt.divcnt
  rstReq  := s.wdt.rstReq

/-- Put a snapshot's fields back; `freqHz` is derived and is not read (R23, R27). Any snapshot is accepted, also one that
breaks R25: every rule is total on it (93 U7; log 21). -/
def State.restore (s : State) (k : Snapshot) : State :=
  s.onWdt fun _ =>
    { control := k.control, reload := k.reload, count := k.count, running := k.running
      divcnt := k.divcnt, irq := k.irq, rstReq := k.rstReq }

end Sys2Proof.Machine
end

