-- ==== Sys2Proof/Machine/Trace.lean ====
section
/-! DEFINITION. The trace notation of the spec (30_encoding.md R54), its pseudo-operations (R55), and what a finite run
yields (45_cycle_step.md R112). -/

namespace Sys2Proof.Machine

/-- `<reg>` of a trace line: a register's name, or `@<offset>` (R54). -/
inductive TraceReg where
  | named (r : RegName)
  | literal (a : Offset)
  deriving DecidableEq, Repr

/-- The offset a `<reg>` stands for (R54). -/
def TraceReg.offset : TraceReg → Offset
  | .named r   => r.offset
  | .literal a => a

/-- A line of the trace notation (R54). -/
inductive TraceLine where
  /-- `RESET`: one edge with reset asserted. -/
  | reset
  /-- `WR <reg>, <value>`: one write. -/
  | wr (r : TraceReg) (v : Word)
  /-- `RD <reg> -> v !d`: one read, and what it is expected to return where the line says so. -/
  | rd (r : TraceReg) (v : Option Word) (d : Option (BitVec 2))
  /-- `WAIT <n>`: `n` idle edges. -/
  | wait (n : Nat)
  deriving DecidableEq, Repr

/-- The pins at the edges of a line (R54). Pins the line leaves open are 0 (log 22). -/
def TraceLine.edges : TraceLine → List PinsIn
  | .reset  => [.reset]
  | .wr r v => [.memWrite r.offset v]
  | .rd r _ _ => [.memRead r.offset]
  | .wait n => List.replicate n .idle

/-- The encoding of a line: `cmd`, and `wdata` where it is carried; RESET has none (R54). -/
def TraceLine.encoding : TraceLine → Option (Cmd × Option Word)
  | .reset  => none
  | .wr r v => some (mkCmd true true r.offset, some v)
  | .rd r _ _ => some (mkCmd true false r.offset, none)
  | .wait _ => some (0#6, none)

/-- The pseudo-operations of the notation (R55). -/
inductive PseudoOp where
  | start (c : Word)
  | stop (c : Word)
  | kick (v : Word)
  | ackIrq
  | nop
  deriving DecidableEq, Repr

/-- The expansion of a pseudo-operation (R55). -/
def PseudoOp.expand : PseudoOp → List TraceLine
  | .start c => [.wr (.named .control) (c &&& 0xFFFFFFDF#32), .wr (.named .control) (c ||| 0x00000020#32)]
  | .stop c  => [.wr (.named .control) (c &&& 0xFFFFFFDF#32)]
  | .kick v  => [.wr (.named .count) v]
  | .ackIrq  => [.wr (.named .ack) 0#32]
  | .nop     => [.wait 1]

/-- The edges of a pseudo-operation. -/
def PseudoOp.edges (p : PseudoOp) : List PinsIn := p.expand.flatMap TraceLine.edges

/-- The edges of a trace. -/
def traceEdges (ls : List TraceLine) : List PinsIn := ls.flatMap TraceLine.edges

/-- Is the reply of a line's edge what the line expects (R54)? Only a read expects anything. -/
def TraceLine.expects (l : TraceLine) (o : BusOut) : Bool :=
  match l with
  | .rd _ v d => v.all (fun x => decide (o.rdata = some x)) && d.all (fun x => decide (o.diag.code = x))
  | .reset | .wr _ _ | .wait _ => true

/-- `n` edges from `s`, each taking its pins from `s.inputs` (R104 iterated, R112). -/
def run (n : Nat) (s : State) : Host.Outcome State Fault Refusal := Sys2Proof.core.run n s

/-- Does the trace, from `s`, return what its lines expect (R54)? -/
def traceMeets : List TraceLine → State → Bool
  | [], _ => true
  | l :: ls, s =>
    match run l.edges.length (s.present l.edges) with
    | .next t    => l.expects t.out && traceMeets ls t
    | .fault _   => false
    | .refused _ => false

/-- The result of a finite run: the last state, the outputs of its edges, and the edges after which `irq` and `rst_req`
were 1 (R112). -/
structure RunLog where
  final       : State
  outs        : List BusOut
  irqEdges    : List Nat
  rstReqEdges : List Nat
  deriving DecidableEq, Repr

/-- The result of the run of `n` edges (R112); a step that stopped would end it. -/
def observe : Nat → State → RunLog
  | 0, s => ⟨s, [], [], []⟩
  | n + 1, s =>
    match step s with
    | .next t =>
      let l := observe n t
      { final       := l.final
        outs        := t.out :: l.outs
        irqEdges    := if t.wdt.irq then t.edge :: l.irqEdges else l.irqEdges
        rstReqEdges := if t.wdt.rstReq then t.edge :: l.rstReqEdges else l.rstReqEdges }
    | .fault _   => ⟨s, [], [], []⟩
    | .refused _ => ⟨s, [], [], []⟩

end Sys2Proof.Machine
end

