-- ==== Sys2Proof/Safety.lean ====
section
/-! DEFINITION. What counts as a safe state and a safe run, the events claims speak of, and the writes that restart the
tick period. -/

namespace Sys2Proof.Machine

/-- The invariants of 10_state.md R25: (a) a running engine has the stored enable bit set; (b) `divcnt < N`; (c) a stopped
engine has `divcnt = 0`; (d) no reset request while running. -/
structure Wdt.Inv (d : DivDecode) (w : Wdt) : Prop where
  enabled   : w.running = true → en w.control = true
  inPeriod  : w.divcnt.toNat < period d w.control
  frozen    : w.running = false → w.divcnt = 0#15
  noRequest : w.rstReq = true → w.running = false

/-- R25 of the machine. -/
def State.Inv (s : State) : Prop := s.wdt.Inv s.params.divDecode

/-- The states of the runs from a reset with parameters that meet R6's constraint, whatever the inputs. -/
inductive Reachable : State → Prop where
  | reset (p : Params) (ins : List PinsIn) (h : p.wf = true) : Reachable (State.afterReset p ins)
  | step (s t : State) (hs : Reachable s) (ht : Sys2Proof.Machine.step s = .next t) : Reachable t

/-- A safe run: no edge stops the machine (R112: "The block never halts"). -/
def SafeRun (s : State) : Prop := ∀ n, ∃ t, run n s = .next t

/-- The coming edge performs TICK (R88, R106): no reset, the engine runs and its tick period runs out. -/
def State.ticksNow (s : State) : Bool :=
  !s.pinsNow.rst && s.wdt.running && s.wdt.tickDue s.params.divDecode

/-- The coming edge performs EXPIRE (R89): it ticks with a count of 1 or 0. -/
def State.expiresNow (s : State) : Bool := s.ticksNow && decide (s.wdt.count.toNat ≤ 1)

/-- The coming edge starts the engine by a CONTROL write that takes the stored enable bit from 0 to 1 (R68). -/
def State.startsNow (s : State) : Bool :=
  match s.pinsNow.operation with
  | .wrControl v => !en s.wdt.control && en v
  | _            => false

/-- The pins of an edge carry neither reset nor a write to CONTROL or COUNT (the premise of R95). -/
def PinsIn.quiet (i : PinsIn) : Bool := !i.rst && (decodeCmd i.cmd i.wdata).isQuiet

/-! ## Writes that restart the tick period (R138) -/

/-- A write to CONTROL or COUNT. -/
inductive Restart where
  | control (v : Word)
  | count (v : Word)
  deriving DecidableEq, Repr

namespace Restart

/-- The pins of the write. -/
def pins : Restart → PinsIn
  | .control v => .memWrite (RegName.offset .control) v
  | .count v   => .memWrite (RegName.offset .count) v

/-- CONTROL after the write, from what it was. -/
def controlAfter (c : Word) : Restart → Word
  | .control v => v
  | .count _   => c

/-- The count after the write, from what it was; a CONTROL write that keeps the enable bit leaves it (R70). -/
def countAfter (n : Word) : Restart → Word
  | .control _ => n
  | .count v   => v

end Restart

/-- Edges with neither reset nor a CONTROL or COUNT write, and then one such write. -/
structure Round where
  before : List PinsIn
  write  : Restart
  deriving DecidableEq, Repr

/-- The pins of a round, edge by edge. -/
def Round.edges (r : Round) : List PinsIn := r.before ++ [r.write.pins]

/-- From CONTROL `c` and cycle `k` of the tick period, every round's write comes before the period in force runs out, and
keeps the stored enable bit: the premise of R138, "at intervals shorter than `N` cycles". -/
def roundsInTime (d : DivDecode) : Word → Nat → List Round → Prop
  | _, _, [] => True
  | c, k, r :: rs =>
    (∀ i ∈ r.before, i.quiet = true) ∧ k + r.before.length + 1 < period d c ∧
    en (r.write.controlAfter c) = en c ∧ roundsInTime d (r.write.controlAfter c) 0 rs

end Sys2Proof.Machine
end

