-- ==== Sys2Proof/Certificates/Slice0/Obligations.lean ====
section
/-! DEFINITION. The statements for the provers. R<n> are the numbered rules of spec/; a statement that rests on one of the
spec's own decisions D<n> (92_eei_decisions.md) or on an entry of the model's log says so. -/

open Sys2Proof Sys2Proof.Machine

/-! ## Encoding -/

/-- R47: every row of the table decodes to the operation it names; the rows are disjoint and cover all 64 commands, in the
numbers the rule gives; an unmapped access carries the offset of its request, a write its data word. -/
def Obligations.OpcodeRowsCoverEveryCommandDisjointly : Prop :=
  (∀ (r : OpcodeRow) (c : Cmd) (v : Word), r ∈ opcodeRows → c &&& r.mask = r.pattern →
    (decodeCmd c v).mnemonic = r.mnemonic) ∧
  (∀ c : Cmd, (opcodeRows.filter fun r => r.matchesCmd c).length = 1) ∧
  opcodeRows.map (fun r => ((List.range 64).filter fun n => r.matchesCmd (BitVec.ofNat 6 n)).length) =
    [32, 1, 1, 1, 1, 8, 4, 1, 1, 1, 1, 8, 4] ∧
  opcodeRows = [⟨"IDLE", 0x00, 0x20⟩, ⟨"RD_CONTROL", 0x20, 0x3F⟩, ⟨"RD_RELOAD", 0x24, 0x3F⟩,
    ⟨"RD_COUNT", 0x28, 0x3F⟩, ⟨"RD_ACK", 0x2C, 0x3F⟩, ⟨"RD_UNMAPPED", 0x21, 0x31⟩, ⟨"RD_UNMAPPED", 0x22, 0x33⟩,
    ⟨"WR_CONTROL", 0x30, 0x3F⟩, ⟨"WR_RELOAD", 0x34, 0x3F⟩, ⟨"WR_COUNT", 0x38, 0x3F⟩, ⟨"WR_ACK", 0x3C, 0x3F⟩,
    ⟨"WR_UNMAPPED", 0x31, 0x31⟩, ⟨"WR_UNMAPPED", 0x32, 0x33⟩] ∧
  (∀ (c : Cmd) (v : Word) (a : Offset), decodeCmd c v = .rdUnmapped a → a = c.extractLsb' 0 4) ∧
  (∀ (c : Cmd) (v w : Word) (a : Offset), decodeCmd c v = .wrUnmapped a w → a = c.extractLsb' 0 4 ∧ w = v) ∧
  (∀ (c : Cmd) (v w : Word),
    decodeCmd c v = .wrControl w ∨ decodeCmd c v = .wrReload w ∨ decodeCmd c v = .wrCount w ∨ decodeCmd c v = .wrAck w →
    w = v)

/-- The command words 95_test_vectors.md writes out decode to their operations. A sanity statement. -/
def Obligations.WrittenOutCommandsDecode : Prop :=
  decodeCmd 0b000000#6 7#32 = .idle ∧ decodeCmd 0b010000#6 7#32 = .idle ∧
  decodeCmd 0b100000#6 0#32 = .rdControl ∧ decodeCmd 0b100100#6 0#32 = .rdReload ∧
  decodeCmd 0b101000#6 0#32 = .rdCount ∧ decodeCmd 0b101100#6 0#32 = .rdAck ∧
  decodeCmd 0b101001#6 0#32 = .rdUnmapped 9#4 ∧ decodeCmd 0b101110#6 0#32 = .rdUnmapped 14#4 ∧
  decodeCmd 0b110000#6 0x24#32 = .wrControl 0x24#32 ∧ decodeCmd 0b110100#6 1000#32 = .wrReload 1000#32 ∧
  decodeCmd 0b111000#6 2#32 = .wrCount 2#32 ∧ decodeCmd 0b111100#6 0x55#32 = .wrAck 0x55#32 ∧
  decodeCmd 0b110101#6 0x1234#32 = .wrUnmapped 5#4 0x1234#32 ∧ decodeCmd 0b111101#6 0#32 = .wrUnmapped 13#4 0#32

/-- Decode and encode agree for every well-formed bus operation, as command and data word (R46, R47) and as the bytes of
log 8, whatever follows them; the four internal operations have no encoding (R56). -/
def Obligations.DecodeOfEncodeIsTheOperation : Prop :=
  (∀ (i : Instr) (rest : List Byte), i.wf = true → i.isBus = true →
    ∃ (c : Cmd) (v : Word) (bs : List Byte), encode i = some (c, v) ∧ decodeCmd c v = i ∧
      encodeBytes i = some bs ∧ bs.length = 5 ∧ decodeBytes (bs ++ rest) = .ok (i, rest)) ∧
  (∀ i : Instr, i.isBus = false → encode i = none ∧ encodeBytes i = none)

/-- Every command decodes to a well-formed bus operation, and encoding it again gives back every pin the decode examines
(R46 to R48, R53): `sel` always, `we` and `addr` of a request, `wdata` of a write. -/
def Obligations.EncodeOfDecodeKeepsTheExaminedPins : Prop :=
  ∀ (c : Cmd) (v : Word), (decodeCmd c v).wf = true ∧ (decodeCmd c v).isBus = true ∧
    ∃ (c' : Cmd) (v' : Word), encode (decodeCmd c v) = some (c', v') ∧ c'.getLsbD 5 = c.getLsbD 5 ∧
      (c.getLsbD 5 = true → c' = c) ∧ (c.getLsbD 5 = true → c.getLsbD 4 = true → v' = v)

/-- What is not examined has no influence: with `sel = 0` nothing else (R48), on a read not `wdata` (R31). -/
def Obligations.UnexaminedPinsDoNotMatter : Prop :=
  (∀ (c : Cmd) (v : Word), c.getLsbD 5 = false → decodeCmd c v = .idle) ∧
  (∀ (c : Cmd) (v w : Word), c.getLsbD 4 = false → decodeCmd c v = decodeCmd c w)

/-- The host's placing of a command and the host's decode agree (log 8, log 9): where the decoder reads `i` from a word,
the very next edge runs `i`, after the time phase of that edge. -/
def Obligations.PlacedCommandRunsAtTheNextEdge : Prop :=
  ∀ (s : State) (nbits w : Nat) (i : Instr), decodeTableWord nbits w = some i →
    step (s.withFetchWord nbits w) =
      exec i { s with inputs := s.inputs.tail, edge := s.edge + 1, wdt := s.wdt.timePhase s.params.divDecode }

/-! ## The step -/

/-- R104 and R105: at an edge with `rst = 1` the machine performs RESET and nothing else; otherwise the time phase, then
the operation that the command decodes to, on the state the time phase left. The order of the two phases is the spec's
decision D4; the input list and the edge number are the model's (log 1, log 6), and with nothing listed the edge is an
idle one. -/
def Obligations.EdgeRunsResetOrTheDecodedCommand : Prop :=
  (∀ (s : State) (i : PinsIn) (rest : List PinsIn), s.inputs = i :: rest → i.rst = true →
    step s = exec .reset { s with inputs := rest, edge := s.edge + 1 }) ∧
  (∀ (s : State) (i : PinsIn) (rest : List PinsIn), s.inputs = i :: rest → i.rst = false →
    step s = exec (decodeCmd i.cmd i.wdata)
      { s with inputs := rest, edge := s.edge + 1, wdt := s.wdt.timePhase s.params.divDecode }) ∧
  (∀ s : State, s.inputs = [] →
    step s = exec .idle { s with edge := s.edge + 1, wdt := s.wdt.timePhase s.params.divDecode })

/-- R112: no run of any length stops, from any state and with any inputs; each edge uses one listed input and counts one,
and the parameters never change (log 1, log 2, log 6). -/
def Obligations.NoRunEverStops : Prop :=
  ∀ (s : State) (n : Nat), ∃ t, run n s = .next t ∧ t.inputs = s.inputs.drop n ∧ t.edge = s.edge + n ∧
    t.params = s.params

/-- R106: the time phase, unfolded. The pulse of `rst_req` ends first (R104). Rests on the decisions D5, D6 and D7. -/
def Obligations.TimePhaseUnfolds : Prop :=
  ∀ (d : DivDecode) (w : Wdt),
    w.timePhase d =
      if w.running then
        if period d w.control ≤ w.divcnt.toNat + 1 then
          if w.count.toNat ≤ 1 then
            if irqEn w.control then
              { w with rstReq := false, divcnt := 0, irq := true, count := w.reload, running := true }
            else if rstEn w.control then
              { w with rstReq := true, divcnt := 0, count := 0, running := false }
            else { w with rstReq := false, divcnt := 0, count := 0, running := false }
          else { w with rstReq := false, divcnt := 0, count := w.count - 1 }
        else { w with rstReq := false, divcnt := w.divcnt + 1 }
      else { w with rstReq := false }

/-! ## The operations -/

/-- R48: IDLE changes no state of the block, its `diag` is 0 and its `rdata` unspecified (`none`, log 5); every command
with `sel = 0` is IDLE; and the time phase of its edge still runs. -/
def Obligations.IdleDoesNothingButTimePasses : Prop :=
  (∀ s : State, exec .idle s = .next { s with out := ⟨none, .noError⟩ }) ∧ Diag.code .noError = 0 ∧
  (∀ (c : Cmd) (v : Word), c.getLsbD 5 = false → decodeCmd c v = .idle) ∧
  (∀ (s : State) (c : Cmd) (v : Word) (rest : List PinsIn), c.getLsbD 5 = false → s.inputs = ⟨false, c, v⟩ :: rest →
    step s = .next { s with inputs := rest, edge := s.edge + 1, out := ⟨none, .noError⟩,
                            wdt := s.wdt.timePhase s.params.divDecode })

/-- R66 and R65: what each read returns, row by row, and that it changes nothing but `rdata` and `diag`. The rule gives
RD_UNMAPPED at the twelve unmapped offsets; that a term with one of the four mapped ones, which no decode gives, answers
alike is the model's choice (log 11). -/
def Obligations.ReadsReturnTheirTableRowAndChangeNothing : Prop :=
  ∀ (s : State) (v : Word),
    (decodeCmd 0x20 v = .rdControl ∧ exec .rdControl s = .next { s with out := ⟨some s.wdt.control, .noError⟩ }) ∧
    (decodeCmd 0x24 v = .rdReload ∧ exec .rdReload s = .next { s with out := ⟨some s.wdt.reload, .noError⟩ }) ∧
    (decodeCmd 0x28 v = .rdCount ∧ exec .rdCount s = .next { s with out := ⟨some s.wdt.count, .noError⟩ }) ∧
    (decodeCmd 0x2C v = .rdAck ∧ exec .rdAck s = .next { s with out := ⟨some 0, .rdAck⟩ }) ∧
    (∀ a : Offset, a ∈ ([0x1, 0x2, 0x3, 0x5, 0x6, 0x7, 0x9, 0xA, 0xB, 0xD, 0xE, 0xF] : List Offset) →
      decodeCmd (0b10#2 ++ a) v = .rdUnmapped a) ∧
    (∀ a : Offset, exec (.rdUnmapped a) s = .next { s with out := ⟨some 0, .rdUnmapped⟩ }) ∧
    Diag.code .noError = 0 ∧ Diag.code .rdAck = 1 ∧ Diag.code .rdUnmapped = 2

/-- R74: a write at an unmapped offset is dropped whatever its offset and data: no state of the block changes, and `diag`
is 3. The model's choices: a term with one of the four mapped offsets, which no decode gives, answers alike (log 11), and
the unspecified `rdata` is `none` (log 5). -/
def Obligations.UnmappedWritesAreDropped : Prop :=
  (∀ (a : Offset) (v : Word) (s : State), exec (.wrUnmapped a v) s = .next { s with out := ⟨none, .wrUnmapped⟩ }) ∧
  Diag.code .wrUnmapped = 3 ∧
  (∀ (c : Cmd) (v : Word), c &&& 0x31 = 0x31 ∨ c &&& 0x33 = 0x32 → decodeCmd c v = .wrUnmapped (c.extractLsb' 0 4) v) ∧
  (∀ (a : Offset) (v : Word), a.extractLsb' 0 2 ≠ 0 → decodeCmd (0b11#2 ++ a) v = .wrUnmapped a v)

/-- R75: what each write does, row by row, everything else unchanged; no write changes `rst_req`. (That CONTROL and COUNT
writes clear `divcnt` is the spec's decision D6; `rdata` as `none` is the model's choice, log 5, and so is it that
WR_UNMAPPED answers alike at the four mapped offsets, which no decode gives it, log 11.) -/
def Obligations.WritesDoTheirTableRow : Prop :=
  ∀ (s : State) (v : Word),
    (en s.wdt.control = false → en v = true → exec (.wrControl v) s =
      .next { s with out := ⟨none, .noError⟩,
                     wdt := { s.wdt with control := v, count := s.wdt.reload, running := true, divcnt := 0 } }) ∧
    (en s.wdt.control = true → en v = false → exec (.wrControl v) s =
      .next { s with out := ⟨none, .noError⟩, wdt := { s.wdt with control := v, running := false, divcnt := 0 } }) ∧
    (en s.wdt.control = en v → exec (.wrControl v) s =
      .next { s with out := ⟨none, .noError⟩, wdt := { s.wdt with control := v, divcnt := 0 } }) ∧
    exec (.wrReload v) s = .next { s with out := ⟨none, .noError⟩, wdt := { s.wdt with reload := v } } ∧
    (en s.wdt.control = true → exec (.wrCount v) s =
      .next { s with out := ⟨none, .noError⟩, wdt := { s.wdt with count := v, divcnt := 0 } }) ∧
    (en s.wdt.control = false → exec (.wrCount v) s =
      .next { s with out := ⟨none, .noError⟩, wdt := { s.wdt with count := v, divcnt := 0, running := false } }) ∧
    exec (.wrAck v) s = .next { s with out := ⟨none, .noError⟩, wdt := { s.wdt with irq := false } } ∧
    (∀ a : Offset, exec (.wrUnmapped a v) s = .next { s with out := ⟨none, .wrUnmapped⟩ })

/-- R39: every write is idempotent on the state; doing it again leaves the state of the first. -/
def Obligations.WritesAreIdempotent : Prop :=
  ∀ (i : Instr) (s t : State), i.isWrite = true → exec i s = .next t → exec i t = .next t

/-- R88 and R89: one cycle of the tick generator, and one tick. The increment fits 15 bits; a zero count is not
decremented. Rests on the decisions D5 and D7. -/
def Obligations.AdvanceCountsCyclesAndTickCountsDown : Prop :=
  (∀ s : State, s.wdt.divcnt.toNat + 1 < period s.params.divDecode s.wdt.control →
    exec .advance s = .next { s with wdt := { s.wdt with divcnt := s.wdt.divcnt + 1 } } ∧
    (s.wdt.divcnt + 1).toNat = s.wdt.divcnt.toNat + 1 ∧ (s.wdt.divcnt + 1).toNat ≤ 32767) ∧
  (∀ s : State, period s.params.divDecode s.wdt.control ≤ s.wdt.divcnt.toNat + 1 →
    exec .advance s = exec .tick { s with wdt := { s.wdt with divcnt := 0 } } ∧
    ∃ t, exec .advance s = .next t) ∧
  (∀ s : State, 2 ≤ s.wdt.count.toNat →
    exec .tick s = .next { s with wdt := { s.wdt with count := s.wdt.count - 1 } } ∧
    (s.wdt.count - 1).toNat = s.wdt.count.toNat - 1) ∧
  (∀ s : State, s.wdt.count.toNat ≤ 1 →
    exec .tick s = exec .expire { s with wdt := { s.wdt with count := 0, running := false } } ∧
    ∃ t, exec .tick s = .next t)

/-- R100 and R97: the decision table of EXPIRE, complete over the two mode bits: interrupt mode before reset mode, and the
enable bit is not read. In the state TICK calls it in (count 0, stopped), the rows without interrupt leave both so. -/
def Obligations.ExpireFollowsItsDecisionTable : Prop :=
  ∀ s : State,
    (irqEn s.wdt.control = true → exec .expire s =
      .next { s with wdt := { s.wdt with irq := true, count := s.wdt.reload, divcnt := 0, running := true } }) ∧
    (irqEn s.wdt.control = false → rstEn s.wdt.control = true → exec .expire s =
      .next { s with wdt := { s.wdt with rstReq := true } }) ∧
    (irqEn s.wdt.control = false → rstEn s.wdt.control = false → exec .expire s = .next s) ∧
    (s.wdt.count = 0 → s.wdt.running = false → irqEn s.wdt.control = false →
      ∃ t, exec .expire s = .next t ∧ t.wdt.count = 0 ∧ t.wdt.running = false ∧ t.wdt.irq = s.wdt.irq)

/-- R103: what EXPIRE never does: write CONTROL or RELOAD, clear `irq`, raise a diagnostic, assert both `irq` and
`rst_req`; and after an edge that performed it, the next fifteen edges perform no tick, whatever the inputs. -/
def Obligations.ExpireNeverActsTwiceNorDoesBoth : Prop :=
  (∀ s t : State, exec .expire s = .next t →
    t.wdt.control = s.wdt.control ∧ t.wdt.reload = s.wdt.reload ∧ (s.wdt.irq = true → t.wdt.irq = true) ∧
    t.out = s.out ∧ (t.wdt.irq = s.wdt.irq ∨ t.wdt.rstReq = s.wdt.rstReq)) ∧
  (∀ (s u : State) (k : Nat), s.expiresNow = true → 1 ≤ k → k ≤ 15 → run k s = .next u → u.ticksNow = false)

/-- R131 and R132: RESET, from any state: CONTROL, RELOAD and COUNT equal their defaults (the parameters, D9, log 2), the
interrupt line is deasserted, the engine is stopped although the stored enable bit is 1 (R6); it overrides the command of
its edge (D10), and the state it leaves does not depend on the state before. `rdata` as `none` is log 5. -/
def Obligations.ResetLeavesTheDefaultsFromAnyState : Prop :=
  (∀ s : State, exec .reset s =
    .next { s with out := ⟨none, .noError⟩
                   wdt := { control := s.params.resetControl, reload := s.params.resetReload
                            count := s.params.resetCount, running := false, divcnt := 0, irq := false
                            rstReq := false } }) ∧
  (∀ (s : State) (i : PinsIn) (rest : List PinsIn), s.inputs = i :: rest → i.rst = true →
    step s = .next { s with inputs := rest, edge := s.edge + 1, out := ⟨none, .noError⟩
                            wdt := { control := s.params.resetControl, reload := s.params.resetReload
                                     count := s.params.resetCount, running := false, divcnt := 0, irq := false
                                     rstReq := false } }) ∧
  (∀ (s t : State), exec .reset s = .next t → s.params.wf = true →
    en t.wdt.control = true ∧ rstEn t.wdt.control = true ∧ t.wdt.running = false)

/-- The example of R131: after a reset and any number of idle edges, the reads return the defaults, whatever they are. -/
def Obligations.ReadsAfterResetReturnTheDefaults : Prop :=
  ∀ (p : Params) (n : Nat), ∃ t, run n (State.afterReset p (List.replicate n .idle)) = .next t ∧
    t.wdt = (State.afterReset p []).wdt ∧
    exec .rdControl t = .next { t with out := ⟨some p.resetControl, .noError⟩ } ∧
    exec .rdReload t = .next { t with out := ⟨some p.resetReload, .noError⟩ } ∧
    exec .rdCount t = .next { t with out := ⟨some p.resetCount, .noError⟩ } ∧ t.pins.irq = false ∧ t.pins.rstReq = false

/-- The machine's own reset state: the values R26 gives, and the named parameters. The numbers of the three registers and
of `DIV_DECODE` are the model's choice (log 3, log 4), as are `inputs` and `edge` (log 1, log 6); the spec gives none. -/
def Obligations.ResetStateHoldsTheNamedDefaults : Prop :=
  State.reset.wdt = { control := 0x8021, reload := 0x8000, count := 0x8000, running := false, divcnt := 0, irq := false
                      rstReq := false } ∧
  State.reset.params.wf = true ∧ State.reset.params.divDecode = .fourWay ∧
  State.reset.params.resetControl = 0x8021 ∧ State.reset.params.resetReload = 0x8000 ∧
  State.reset.params.resetCount = 0x8000 ∧ State.reset.out = ⟨none, .noError⟩ ∧ State.reset.inputs = [] ∧
  State.reset.edge = 1

/-! ## The primitives and the pure functions -/

/-- R87, R86 and R85: the engine's primitives. Stop is idempotent and keeps the count; Start does not load it; SetCount
does not start or stop; none changes the registers it does not name. (The clearing of `divcnt` outside Start is D6.) -/
def Obligations.EnginePrimitivesKeepTheirContract : Prop :=
  ∀ (w : Wdt) (v : Word),
    w.start = { w with running := true, divcnt := 0 } ∧ w.stop = { w with running := false } ∧
    w.stop.stop = w.stop ∧ w.stop.getCount = w.getCount ∧ w.start.getCount = w.getCount ∧
    w.setCount v = { w with count := v, divcnt := 0 } ∧ (w.setCount v).getCount = v ∧
    w.setControl v = { w with control := v, divcnt := 0 }

/-- R50: the fields of a CONTROL word as shifts and masks, zero-extended, the mask of all documented bits, that the fields
read no other bit, and that RELOAD and COUNT words are used whole. -/
def Obligations.ControlFieldsAreShiftsAndMasks : Prop :=
  (∀ (w : Wdt) (v : Word), (w.setReload v).reload = v ∧ (w.setCount v).getCount = v) ∧
  ∀ c : Word,
    (prescaler c).zeroExtend 32 = (c >>> 8) &&& 0xFF ∧ (BitVec.ofBool (en c)).zeroExtend 32 = (c >>> 5) &&& 1 ∧
    (divSel c).zeroExtend 32 = (c >>> 3) &&& 3 ∧ (BitVec.ofBool (irqEn c)).zeroExtend 32 = (c >>> 2) &&& 1 ∧
    (BitVec.ofBool (rstEn c)).zeroExtend 32 = c &&& 1 ∧ documentedMask = 0x0000FF3D ∧
    prescaler (c &&& documentedMask) = prescaler c ∧ en (c &&& documentedMask) = en c ∧
    divSel (c &&& documentedMask) = divSel c ∧ irqEn (c &&& documentedMask) = irqEn c ∧
    rstEn (c &&& documentedMask) = rstEn c

/-- R51 and R77: the divider under both values of `DIV_DECODE` (D13 leaves the choice open; log 2). -/
def Obligations.DividerDecodesByTheParameter : Prop :=
  ∀ c : Word,
    divider .fourWay c = 16 <<< (divSel c).toNat ∧ divider .collapsed c = 16 ∧
    (divSel c = 0b00 → divider .fourWay c = 16) ∧ (divSel c = 0b01 → divider .fourWay c = 32) ∧
    (divSel c = 0b10 → divider .fourWay c = 64) ∧ (divSel c = 0b11 → divider .fourWay c = 128)

/-- R79: no arithmetic fault: the prescaler term is 1 to 256 and does not wrap, the divider is one of four nonzero
constants, the period is at least 16, and the frequency is defined and positive, at least 24000000 / 32768 Hz, which is
reached, and so at least 732 whole hertz. -/
def Obligations.FrequencyIsAlwaysDefined : Prop :=
  (∀ (d : DivDecode) (c : Word),
    1 ≤ (prescaler c).toNat + 1 ∧ (prescaler c).toNat + 1 ≤ 256 ∧
    (divider d c = 16 ∨ divider d c = 32 ∨ divider d c = 64 ∨ divider d c = 128) ∧
    period d c = ((prescaler c).toNat + 1) * divider d c ∧ 16 ≤ period d c ∧ 0 < freqExact d c ∧
    (24000000 : ℚ) / 32768 ≤ freqExact d c ∧ 732 ≤ freqHz d c) ∧
  freqExact .fourWay 0xFF39 = 24000000 / 32768 ∧ (24000000 : ℚ) / 32768 - 732.42 < 0.01

/-- R78 and R80: the period is between 16 and 32768 and fits its widths; `FreqHz` is the integer part of the exact
frequency (D19), and is exact where the period divides 24000000, which it does at 102 of the 1024 settings. -/
def Obligations.PeriodBoundsAndWholeHertz : Prop :=
  (∀ (d : DivDecode) (c : Word),
    period d c = ((prescaler c).toNat + 1) * divider d c ∧ 16 ≤ period d c ∧ period d c ≤ 32768 ∧
    period d c < 2 ^ 16 ∧ period d c - 1 < 2 ^ 15 ∧ freqHz d c = ⌊freqExact d c⌋₊ ∧
    (freqExact d c = (freqHz d c : ℚ) ↔ period d c ∣ 24000000)) ∧
  ((List.range 256).flatMap fun p => (List.range 4).filter fun q =>
    period .fourWay (BitVec.ofNat 32 (256 * p + 8 * q)) ∣ 24000000).length = 102

/-! ## Invariants and whole-machine rules -/

/-- R25 holds after a reset, for all parameters and inputs. -/
def Obligations.ResetMeetsTheInvariant : Prop := ∀ (p : Params) (ins : List PinsIn), (State.afterReset p ins).Inv

/-- R25: every edge keeps it: a running engine has enable set; `divcnt < N`; a stopped engine has `divcnt = 0`; no reset
request while running. From any state that meets it, not only from those of a run. -/
def Obligations.EveryEdgeKeepsTheInvariant : Prop := ∀ s t : State, s.Inv → step s = .next t → t.Inv

/-- R25: the four invariants are true in every state reachable from reset. -/
def Obligations.ReachableStatesMeetTheInvariant : Prop :=
  ∀ s : State, Reachable s →
    (s.wdt.running = true → en s.wdt.control = true) ∧
    s.wdt.divcnt.toNat < period s.params.divDecode s.wdt.control ∧
    (s.wdt.running = false → s.wdt.divcnt = 0) ∧
    (s.wdt.rstReq = true → s.wdt.running = false)

/-- R28, R60, R61, R103: CONTROL and RELOAD hold the last word written to them, all 32 bits, through every edge: only
their writes and reset change them, never a tick, an expiry, a stop or an acknowledge. -/
def Obligations.ControlAndReloadChangeOnlyByTheirWrites : Prop :=
  ∀ s t : State, step s = .next t →
    t.wdt.control = (match s.pinsNow.operation with
      | .reset => s.params.resetControl
      | .wrControl v => v
      | _ => s.wdt.control) ∧
    t.wdt.reload = (match s.pinsNow.operation with
      | .reset => s.params.resetReload
      | .wrReload v => v
      | _ => s.wdt.reload)

/-- R24 and R28: the whole of how the count moves at an edge. It is reloaded only by reset, by the CONTROL write that
starts the engine, by a COUNT write and by an interrupt-mode expiry; a tick takes one from it and never wraps a zero. -/
def Obligations.CountMovesOnlyByItsRules : Prop :=
  ∀ s t : State, step s = .next t →
    t.wdt.count = (match s.pinsNow.operation with
      | .reset => s.params.resetCount
      | .wrCount v => v
      | _ =>
        if s.startsNow then s.wdt.reload
        else if s.expiresNow && irqEn s.wdt.control then s.wdt.reload
        else if s.ticksNow then BitVec.ofNat 32 (s.wdt.count.toNat - 1)
        else s.wdt.count)

/-- R21, R73 and R115: `irq` after an edge. It rises only at an interrupt-mode expiry and falls only at an ACK write or a
reset; an ACK write at the very edge of the expiry hides it (D4). -/
def Obligations.IrqRisesAtExpiryFallsAtAckOrReset : Prop :=
  ∀ s t : State, step s = .next t →
    (t.wdt.irq = true ↔
      s.pinsNow.rst = false ∧ (∀ v, s.pinsNow.operation ≠ .wrAck v) ∧
      (s.wdt.irq = true ∨ (s.expiresNow = true ∧ irqEn s.wdt.control = true)))

/-- R22 and R98: `rst_req` is 1 after an edge exactly if that edge dispatched an expiry in reset mode; so it lasts one
cycle (D11), and with irq-enable set it never comes (R143). -/
def Obligations.ResetRequestFollowsAResetModeExpiryOnly : Prop :=
  ∀ s t : State, step s = .next t →
    (t.wdt.rstReq = true ↔
      s.expiresNow = true ∧ irqEn s.wdt.control = false ∧ rstEn s.wdt.control = true)

/-- R93: the state machine of the engine: per event, where `running` goes and what becomes of the count. Time is the time
phase, a bus operation the bus phase (D24). -/
def Obligations.EngineStateMachine : Prop :=
  (∀ (s : State) (i : Instr), s.wdt.running = false → i.isBus = true → ∃ t, exec i s = .next t ∧
    ((∃ v, i = .wrControl v ∧ en s.wdt.control = false ∧ en v = true) →
      t.wdt.running = true ∧ t.wdt.count = s.wdt.reload ∧ t.wdt.divcnt = 0) ∧
    (¬ (∃ v, i = .wrControl v ∧ en s.wdt.control = false ∧ en v = true) →
      t.wdt.running = false ∧ ((∀ v, i ≠ .wrCount v) → t.wdt.count = s.wdt.count))) ∧
  (∀ (d : DivDecode) (w : Wdt), w.running = false →
    (w.timePhase d).running = false ∧ (w.timePhase d).count = w.count) ∧
  (∀ (s : State) (i : Instr), s.wdt.running = true → i.isBus = true → ∃ t, exec i s = .next t ∧
    ((∃ v, i = .wrControl v ∧ en s.wdt.control = true ∧ en v = false) →
      t.wdt.running = false ∧ t.wdt.count = s.wdt.count) ∧
    (∀ v, i = .wrCount v → t.wdt.count = v ∧ t.wdt.running = en s.wdt.control) ∧
    (¬ (∃ v, i = .wrControl v ∧ en s.wdt.control ≠ en v) → (∀ v, i ≠ .wrCount v) →
      t.wdt.running = true ∧ t.wdt.count = s.wdt.count)) ∧
  (∀ (d : DivDecode) (w : Wdt), w.running = true → w.tickDue d = true →
    (2 ≤ w.count.toNat → (w.timePhase d).running = true ∧ (w.timePhase d).count = w.count - 1) ∧
    (w.count.toNat ≤ 1 → irqEn w.control = true →
      (w.timePhase d).running = true ∧ (w.timePhase d).irq = true ∧ (w.timePhase d).count = w.reload ∧
      (w.timePhase d).divcnt = 0) ∧
    (w.count.toNat ≤ 1 → irqEn w.control = false →
      (w.timePhase d).running = false ∧ (w.timePhase d).count = 0 ∧ (w.timePhase d).rstReq = rstEn w.control)) ∧
  (∀ (s t : State), exec .reset s = .next t → t.wdt.running = false)

/-- R91, R98 and R137: one-shot. A stopped engine stays stopped through any inputs, ticks nothing and requests nothing,
until an edge starts it by a CONTROL write that takes the stored enable bit from 0 to 1. -/
def Obligations.StoppedEngineStaysStoppedUntilStarted : Prop :=
  ∀ (s u : State) (n : Nat), s.wdt.running = false →
    (∀ k < n, ∀ t, run k s = .next t → t.startsNow = false) → run n s = .next u →
    u.wdt.running = false ∧ u.expiresNow = false ∧ (1 ≤ n → u.wdt.rstReq = false) ∧
    (s.wdt.irq = false → u.wdt.irq = false)

/-- R109: the table of coincidences, row by row, where a tick or an expiry completes at the edge that samples the command
(the last row, reset, is `ResetLeavesTheDefaultsFromAnyState`). Rests on the decisions D4 (time first) and D6. -/
def Obligations.CoincidencesOfTimeAndBus : Prop :=
  ∀ (s t : State) (v : Word) (a : Instr), step s = .next t → s.pinsNow.rst = false →
    a = s.pinsNow.operation → s.ticksNow = true →
    (a = .rdCount → 2 ≤ s.wdt.count.toNat → t.out = ⟨some (s.wdt.count - 1), .noError⟩) ∧
    (a = .rdCount → s.wdt.count.toNat ≤ 1 → irqEn s.wdt.control = true →
      t.out = ⟨some s.wdt.reload, .noError⟩ ∧ t.wdt.irq = true) ∧
    (a = .rdCount → s.wdt.count.toNat ≤ 1 → irqEn s.wdt.control = false → t.out = ⟨some 0, .noError⟩) ∧
    (a = .wrCount v → 2 ≤ s.wdt.count.toNat → t.wdt.count = v ∧ t.wdt.divcnt = 0) ∧
    (a = .wrCount v → s.wdt.count.toNat ≤ 1 → irqEn s.wdt.control = false → rstEn s.wdt.control = true →
      t.wdt.rstReq = true ∧ t.wdt.count = v ∧ t.wdt.running = false) ∧
    (a = .wrCount v → s.wdt.count.toNat ≤ 1 → irqEn s.wdt.control = true → en s.wdt.control = true →
      t.wdt.irq = true ∧ t.wdt.count = v ∧ t.wdt.running = true ∧ t.wdt.divcnt = 0) ∧
    (a = .wrAck v → s.wdt.count.toNat ≤ 1 → irqEn s.wdt.control = true →
      t.wdt.irq = false ∧ t.wdt.count = s.wdt.reload ∧ t.wdt.running = true) ∧
    (a = .wrControl v → en s.wdt.control = true → en v = false → s.wdt.count.toNat ≤ 1 → irqEn s.wdt.control = true →
      t.wdt.irq = true ∧ t.wdt.count = s.wdt.reload ∧ t.wdt.running = false) ∧
    (a = .wrControl v → en s.wdt.control = true → en v = false → s.wdt.count.toNat ≤ 1 → irqEn s.wdt.control = false →
      rstEn s.wdt.control = true → t.wdt.rstReq = true ∧ t.wdt.count = 0 ∧ t.wdt.running = false) ∧
    (a = .wrControl v → en s.wdt.control = true → en v = false → 2 ≤ s.wdt.count.toNat →
      t.wdt.count = s.wdt.count - 1 ∧ t.wdt.running = false) ∧
    (a = .wrControl v → en s.wdt.control = en v → s.wdt.count.toNat ≤ 1 →
      t.wdt.control = v ∧ t.wdt.irq = (s.wdt.irq || irqEn s.wdt.control) ∧
      t.wdt.rstReq = (!irqEn s.wdt.control && rstEn s.wdt.control)) ∧
    (a = .wrReload v → s.wdt.count.toNat ≤ 1 → irqEn s.wdt.control = true →
      t.wdt.count = s.wdt.reload ∧ t.wdt.reload = v)

/-! ## Time -/

/-- R95: when the expiry comes. From a running engine with `divcnt < N` (R25), with neither reset nor a CONTROL or COUNT
write at the coming edges, the first expiry is at edge `count × N − divcnt` from here (`N − divcnt` for a zero count), and
until then the count and the phase are as the closed form says. Rests on the decisions D1, D5 and D6. -/
def Obligations.ExpiryComesAfterCountTimesPeriod : Prop :=
  ∀ (s : State) (j : Nat), s.wdt.running = true → s.wdt.divcnt.toNat < period s.params.divDecode s.wdt.control →
    (∀ i ∈ s.inputs, i.quiet = true) →
    j < max s.wdt.count.toNat 1 * period s.params.divDecode s.wdt.control - s.wdt.divcnt.toNat →
    ∃ u, run j s = .next u ∧ u.wdt.running = true ∧ u.wdt.control = s.wdt.control ∧
      u.wdt.count.toNat =
        s.wdt.count.toNat - (s.wdt.divcnt.toNat + j) / period s.params.divDecode s.wdt.control ∧
      u.wdt.divcnt.toNat = (s.wdt.divcnt.toNat + j) % period s.params.divDecode s.wdt.control ∧
      (u.expiresNow = true ↔
        j + 1 = max s.wdt.count.toNat 1 * period s.params.divDecode s.wdt.control - s.wdt.divcnt.toNat)

/-- R97, R149 and the source's "the cycle repeats indefinitely until enable is cleared": from a freshly loaded engine in
interrupt mode, with no reset and no CONTROL, COUNT or RELOAD write, the expiries are exactly `max(RELOAD, 1) × N` edges
apart for ever. -/
def Obligations.InterruptExpiriesRepeatForEver : Prop :=
  ∀ (s u : State) (j : Nat), s.wdt.running = true → s.wdt.divcnt = 0 → s.wdt.count = s.wdt.reload →
    irqEn s.wdt.control = true →
    (∀ i ∈ s.inputs, i.quiet = true ∧ ∀ v, i.operation ≠ .wrReload v) → run j s = .next u →
    u.wdt.running = true ∧
    (u.expiresNow = true ↔
      (j + 1) % (max s.wdt.reload.toNat 1 * period s.params.divDecode s.wdt.control) = 0)

/-- R110: idle time in one step. `n` edges with no request and no reset give the state of the closed form, in every mode
and across any number of expiries, from any state. Where `divcnt < N` (R25) or the engine is stopped, the closed form is
the rule's own formula; in a running state with `divcnt ≥ N` (93 U7) it is the model's choice, log 23. Rests on the
decisions D1, D5 and D6. -/
def Obligations.IdleTimeClosedForm : Prop :=
  (∀ (s : State) (n : Nat), (∀ k < n, ((s.inputs[k]?).getD .idle).operation = .idle) →
    run n s = .next (s.idleFor n)) ∧
  (∀ (d : DivDecode) (w : Wdt), w.divcnt.toNat < period d w.control →
    w.toExpiry d = max w.count.toNat 1 * period d w.control - w.divcnt.toNat ∧
    ∀ n, 1 ≤ n → n < w.toExpiry d → w.running = true →
      w.idleFor d n = { w with count := BitVec.ofNat 32 (w.count.toNat - (w.divcnt.toNat + n) / period d w.control)
                               divcnt := BitVec.ofNat 15 ((w.divcnt.toNat + n) % period d w.control)
                               rstReq := false })

/-- R150: the timing the source fixes. Enabling the watchdog (0→1) with RELOAD = 1000, prescaler 0 and divider 16: the
expiry fires at the 16000th edge after the enabling write, 1000/1500000 seconds, once up to there; after it an engine
without irq-enable is stopped, with `rst_req` if reset-enable is set, and one with irq-enable runs from 1000 again. -/
def Obligations.EnablingWriteExpiresAfter16000Edges : Prop :=
  (∀ (s : State) (c : Word) (rest : List PinsIn), en s.wdt.control = false → s.wdt.running = false →
    s.wdt.reload = 1000 → en c = true → prescaler c = 0 → divSel c = 0b00 →
    s.inputs = .memWrite (RegName.offset .control) c :: rest →
    (∀ i ∈ rest, i.quiet = true ∧ ∀ v, i.operation ≠ .wrReload v) →
    (∀ j, 1 ≤ j → j ≤ 16000 → ∃ u, run j s = .next u ∧ (u.expiresNow = true ↔ j = 16000)) ∧
    (∃ u, run 16001 s = .next u ∧ u.wdt.running = irqEn c ∧ u.wdt.count = (if irqEn c then 1000 else 0) ∧
      u.wdt.rstReq = (!irqEn c && rstEn c))) ∧
  period .fourWay 0x21 = 16 ∧ freqExact .fourWay 0x21 = 1500000 ∧ virtualTime 16000 = 1000 / 1500000

/-- R149 and R72 (c): a COUNT write to a running engine moves its expiry to `max(v, 1) × N` edges after the write, whatever
was left before. Rests on the decisions D6 and D7. -/
def Obligations.KickMovesTheExpiry : Prop :=
  ∀ (s : State) (v : Word) (rest : List PinsIn), s.Inv → s.wdt.running = true → s.expiresNow = false →
    s.inputs = .memWrite (RegName.offset .count) v :: rest → (∀ i ∈ rest, i.quiet = true) →
    ∀ j, 1 ≤ j → j ≤ max v.toNat 1 * period s.params.divDecode s.wdt.control →
      ∃ u, run j s = .next u ∧ u.wdt.running = true ∧
        (u.expiresNow = true ↔ j = max v.toNat 1 * period s.params.divDecode s.wdt.control)

/-- R138: a running engine that receives writes to CONTROL or COUNT at intervals shorter than `N` cycles never ticks. From
any cycle of the period, through any rounds of quiet edges (reads, RELOAD and ACK writes, idle edges, R138) each ended in
time by a COUNT write of any word or a CONTROL write of any word that keeps the stored enable bit, no edge ticks; and with
enable set the engine still runs, at the start of its period, with the words last written. Rests on the decision D6. -/
def Obligations.ControlRewritesStarveTheTick : Prop :=
  ∀ (s : State) (rounds : List Round) (rest : List PinsIn), s.wdt.running = true →
    roundsInTime s.params.divDecode s.wdt.control s.wdt.divcnt.toNat rounds →
    s.inputs = rounds.flatMap Round.edges ++ rest →
    (∀ (j : Nat) (u : State), j < (rounds.flatMap Round.edges).length → run j s = .next u → u.ticksNow = false) ∧
    (en s.wdt.control = true → rounds ≠ [] → ∃ u, run (rounds.flatMap Round.edges).length s = .next u ∧
      u.wdt.running = true ∧ u.wdt.divcnt = 0 ∧ u.inputs = rest ∧
      u.wdt.control = rounds.foldl (fun c r => r.write.controlAfter c) s.wdt.control ∧
      u.wdt.count = rounds.foldl (fun n r => r.write.countAfter n) s.wdt.count)

/-- R136: the boot sequence. From a reset with any parameters, writing RELOAD, then CONTROL with enable clear,
then CONTROL with enable set, leaves the engine running with the count loaded, and nothing less does: the engine is still
stopped before the third write. -/
def Obligations.BootSequenceStartsTheEngine : Prop :=
  ∀ (p : Params) (l c c' : Word) (rest : List PinsIn), en c = false → en c' = true →
    (∃ t, run 2 (State.afterReset p (.memWrite (RegName.offset .reload) l ::
        .memWrite (RegName.offset .control) c :: .memWrite (RegName.offset .control) c' :: rest)) = .next t ∧
      t.wdt.running = false) ∧
    (∃ t, run 3 (State.afterReset p (.memWrite (RegName.offset .reload) l ::
        .memWrite (RegName.offset .control) c :: .memWrite (RegName.offset .control) c' :: rest)) = .next t ∧
      t.wdt = { control := c', reload := l, count := l, running := true, divcnt := 0, irq := false, rstReq := false } ∧
      t.inputs = rest)

/-- R55 and R137: the pseudo-operation START starts the engine from any state, running or not, whatever the stored enable
bit; one CONTROL write alone does not, where the stored enable bit is already set. -/
def Obligations.StartPseudoOperationStarts : Prop :=
  (∀ (s : State) (c : Word) (rest : List PinsIn), s.inputs = PseudoOp.edges (.start c) ++ rest →
    ∃ t, run 2 s = .next t ∧ t.wdt.running = true ∧ t.wdt.count = s.wdt.reload ∧ t.wdt.divcnt = 0 ∧
      t.wdt.control = c ||| 0x20 ∧ t.inputs = rest) ∧
  (∀ (s t : State) (v : Word) (rest : List PinsIn), en s.wdt.control = true → s.wdt.running = false →
    s.inputs = .memWrite (RegName.offset .control) v :: rest → step s = .next t →
    t.wdt.running = false ∧ t.wdt.count = s.wdt.count)

/-- R42 and R67: a read returns what the most recent write left: RELOAD written at an edge is what RD_RELOAD returns after
any number of edges with neither reset nor a RELOAD write, and so for CONTROL. -/
def Obligations.ReadsReturnTheMostRecentWrite : Prop :=
  (∀ (s : State) (v : Word) (mid rest : List PinsIn),
    s.inputs = .memWrite (RegName.offset .reload) v :: mid ++ .memRead (RegName.offset .reload) :: rest →
    (∀ i ∈ mid, i.operation ≠ .reset ∧ ∀ w, i.operation ≠ .wrReload w) →
    ∃ t, run (mid.length + 2) s = .next t ∧ t.out = ⟨some v, .noError⟩) ∧
  (∀ (s : State) (v : Word) (mid rest : List PinsIn),
    s.inputs = .memWrite (RegName.offset .control) v :: mid ++ .memRead (RegName.offset .control) :: rest →
    (∀ i ∈ mid, i.operation ≠ .reset ∧ ∀ w, i.operation ≠ .wrControl w) →
    ∃ t, run (mid.length + 2) s = .next t ∧ t.out = ⟨some v, .noError⟩)

/-! ## What has no influence -/

/-- R38 and R65: reads are invisible to the block. Two runs whose inputs differ only in that one reads where the other reads
elsewhere or idles leave the block in the same state after every edge. -/
def Obligations.ReadsAreInvisibleToTheBlock : Prop :=
  ∀ (s : State) (ins ins' : List PinsIn) (n : Nat) (t t' : State),
    List.Forall₂ (fun i j => i = j ∨
      ((i.operation.isRead = true ∨ i.operation = .idle) ∧ (j.operation.isRead = true ∨ j.operation = .idle))) ins ins' →
    run n (s.present ins) = .next t → run n (s.present ins') = .next t' →
    t.wdt = t'.wdt ∧ t.pins.irq = t'.pins.irq ∧ t.pins.rstReq = t'.pins.rstReq

/-- R15 and R50: the undocumented bits of CONTROL have no effect. Two machines that differ in nothing but those bits, given
the same inputs, differ after any run in nothing but those bits and the read data of a CONTROL read, which are then the
CONTROL words of the two machines; while a CONTROL write stores all 32 bits and a read gives them back. That they are stored is the decision D8. -/
def Obligations.UndocumentedControlBitsHaveNoEffect : Prop :=
  (∀ (s s' t t' : State) (n : Nat),
    s' = { s with wdt := { s.wdt with control := s'.wdt.control } } →
    s.wdt.control &&& documentedMask = s'.wdt.control &&& documentedMask →
    run n s = .next t → run n s' = .next t' →
    t' = { t with out := t'.out, wdt := { t.wdt with control := t'.wdt.control } } ∧
    t.wdt.control &&& documentedMask = t'.wdt.control &&& documentedMask ∧ t.out.diag = t'.out.diag ∧
    (t.out.rdata = t'.out.rdata ∨
      (t.out.rdata = some t.wdt.control ∧ t'.out.rdata = some t'.wdt.control))) ∧
  (∀ (s : State) (v : Word), ∃ t, exec (.wrControl v) s = .next t ∧
    exec .rdControl t = .next { t with out := ⟨some v, .noError⟩ })

/-- R13, R114 and R33: the output latches, `irq` and `rst_req` are read by nothing inside the block: changing the latches
and `rst_req` before an edge changes nothing after it, and changing `irq` as well changes after it at most `irq`. -/
def Obligations.OutputsAreReadByNothing : Prop :=
  (∀ (s t : State) (o : BusOut) (b : Bool), step s = .next t →
    step { s with out := o, wdt := { s.wdt with rstReq := b } } = .next t) ∧
  (∀ (s t : State) (o : BusOut) (b b' : Bool), step s = .next t →
    ∃ c, step { s with out := o, wdt := { s.wdt with irq := b, rstReq := b' } } =
      .next { t with wdt := { t.wdt with irq := c } })

/-- R108 and R31: the pins between edges show the state and the reply of the last edge and depend on no input of the
coming one; where a read was sampled they show its data, and elsewhere the free value (log 5), of which nothing is said. -/
def Obligations.PinsAreRegistered : Prop :=
  ∀ (s : State) (ins : List PinsIn), (s.present ins).pins = s.pins ∧ s.pins.irq = s.wdt.irq ∧
    s.pins.rstReq = s.wdt.rstReq ∧ s.pins.diag = s.out.diag.code ∧ (∀ v, s.out.rdata = some v → s.pins.rdata = v)

/-- R27: a snapshot that holds the listed fields lets the block resume exactly: restored into any machine with the same
parameters, it gives the block the same state after every run with the same inputs. Its frequency is computed (D20). -/
def Obligations.SnapshotResumesExactly : Prop :=
  (∀ (s s' t t' : State) (n : Nat), s'.params = s.params → s'.inputs = s.inputs →
    run n s = .next t → run n (s'.restore s.save) = .next t' → t'.wdt = t.wdt) ∧
  (∀ s : State, s.save.freqHz = freqHz s.params.divDecode s.wdt.control)

/-- R54 and R55: the lines of the trace notation present exactly their operations at their edges, a register's offset written
literally being that register; a read line is met exactly if the reply is what it expects, where it expects something; and
the pseudo-operations present the operations of their expansions. -/
def Obligations.TraceLinesPresentTheirOperations : Prop :=
  (TraceLine.edges .reset).map PinsIn.operation = [.reset] ∧
  (∀ (r : RegName) (v : Word), (TraceLine.edges (.wr (.named r) v)).map PinsIn.operation =
    [match r with
      | .control => .wrControl v
      | .reload => .wrReload v
      | .count => .wrCount v
      | .ack => .wrAck v]) ∧
  (∀ (r : RegName) (v : Option Word) (d : Option (BitVec 2)), (TraceLine.edges (.rd (.named r) v d)).map PinsIn.operation =
    [match r with
      | .control => .rdControl
      | .reload => .rdReload
      | .count => .rdCount
      | .ack => .rdAck]) ∧
  (∀ n : Nat, (TraceLine.edges (.wait n)).map PinsIn.operation = List.replicate n .idle) ∧
  (∀ (a : Offset) (v : Word), a.extractLsb' 0 2 ≠ 0 →
    (TraceLine.edges (.wr (.literal a) v)).map PinsIn.operation = [.wrUnmapped a v] ∧
    ∀ (x : Option Word) (d : Option (BitVec 2)),
      (TraceLine.edges (.rd (.literal a) x d)).map PinsIn.operation = [.rdUnmapped a]) ∧
  (∀ (r : RegName) (v : Word) (x : Option Word) (d : Option (BitVec 2)),
    TraceLine.edges (.wr (.literal r.offset) v) = TraceLine.edges (.wr (.named r) v) ∧
    TraceLine.edges (.rd (.literal r.offset) x d) = TraceLine.edges (.rd (.named r) x d)) ∧
  (∀ c v : Word,
    (PseudoOp.edges (.start c)).map PinsIn.operation =
      [.wrControl (c &&& 0xFFFFFFDF), .wrControl (c ||| 0x00000020)] ∧
    (PseudoOp.edges (.stop c)).map PinsIn.operation = [.wrControl (c &&& 0xFFFFFFDF)] ∧
    (PseudoOp.edges (.kick v)).map PinsIn.operation = [.wrCount v] ∧
    (PseudoOp.edges .ackIrq).map PinsIn.operation = [.wrAck 0] ∧
    (PseudoOp.edges .nop).map PinsIn.operation = [.idle]) ∧
  (∀ (s t : State) (r : TraceReg) (v : Option Word) (d : Option (BitVec 2)),
    step (s.present (TraceLine.edges (.rd r v d))) = .next t →
    (traceMeets [.rd r v d] s = true ↔
      (∀ x, v = some x → t.out.rdata = some x) ∧ (∀ x, d = some x → t.out.diag.code = x)))

/-- R112: the result of a finite run: its last state, the output of each edge in its place, and exactly the edges after which `irq` and
`rst_req` were 1. Edges are counted on from where the run starts (log 6). -/
def Obligations.RunLogListsTheEdgesOfEachPin : Prop :=
  ∀ (s : State) (n : Nat), run n s = .next (observe n s).final ∧ (observe n s).outs.length = n ∧
    (∀ (j : Nat) (t : State), j < n → run (j + 1) s = .next t → (observe n s).outs[j]? = some t.out) ∧
    (∀ k, k ∈ (observe n s).irqEdges ↔
      ∃ (j : Nat) (t : State), 1 ≤ j ∧ j ≤ n ∧ run j s = .next t ∧ k = s.edge + j ∧ t.wdt.irq = true) ∧
    (∀ k, k ∈ (observe n s).rstReqEdges ↔
      ∃ (j : Nat) (t : State), 1 ≤ j ∧ j ≤ n ∧ run j s = .next t ∧ k = s.edge + j ∧ t.wdt.rstReq = true)
end

