-- ==== Sys2Proof/Laws/Encoding.lean ====
section
/-! SUPPORT. The command word and the bytes: packing and unpacking agree, and what a request of the bus master decodes
to. -/

namespace Sys2Proof

/-- The pins of a packed command are the ones packed (R46). -/
theorem cmd_fields_mkCmd :
    ∀ (a : Offset) (sel we : Bool),
      cmdSel (mkCmd sel we a) = sel ∧ cmdWe (mkCmd sel we a) = we ∧ cmdAddr (mkCmd sel we a) = a := by decide

/-- A command is its pins packed (R46). -/
theorem mkCmd_cmd_fields : ∀ c : Cmd, mkCmd (cmdSel c) (cmdWe c) (cmdAddr c) = c := by decide

@[simp] theorem regAt_offset (r : RegName) : regAt r.offset = some r := by cases r <;> decide

/-- Only the register's own offset maps to it (R30). -/
theorem offset_of_regAt {a : Offset} {r : RegName} (h : regAt a = some r) : r.offset = a := by
  cases r <;> revert a <;> decide

/-- The unmapped offsets are those with `addr[1:0] ≠ 0b00` (R30, R35). -/
theorem regAt_eq_none : ∀ a : Offset, regAt a = none ↔ Offset.unmapped a = true := by decide

theorem decodeCmd_mkCmd_read (a : Offset) (v : Word) : decodeCmd (mkCmd true false a) v = decodeRead a := by
  simp [decodeCmd, cmd_fields_mkCmd]

theorem decodeCmd_mkCmd_write (a : Offset) (v : Word) : decodeCmd (mkCmd true true a) v = decodeWrite a v := by
  simp [decodeCmd, cmd_fields_mkCmd]

/-- The four bytes of a word, put together again (R34). -/
theorem word_of_bytes (v : Word) :
    v.extractLsb' 24 8 ++ v.extractLsb' 16 8 ++ v.extractLsb' 8 8 ++ v.extractLsb' 0 8 = v := by
  apply BitVec.eq_of_getLsbD_eq
  intro i hi
  simp only [BitVec.getLsbD_append, BitVec.getLsbD_extractLsb']
  by_cases h0 : i < 8
  · simp [h0]
  by_cases h1 : i < 16
  · have e : i - 8 < 8 := by omega
    simp only [h0, e, decide_true, decide_false, if_true, if_false, Bool.true_and]
    congr 1; omega
  by_cases h2 : i < 24
  · have a : ¬ i - 8 < 8 := by omega
    have e : i - 8 - 8 < 8 := by omega
    simp only [h0, a, e, decide_true, decide_false, if_true, if_false, Bool.true_and]
    congr 1; omega
  · have a : ¬ i - 8 < 8 := by omega
    have b : ¬ i - 8 - 8 < 8 := by omega
    have e : i - 8 - 8 - 8 < 8 := by omega
    simp only [h0, a, b, e, decide_true, decide_false, if_false, Bool.true_and]
    congr 1; omega

namespace Machine

/-- What `MemWrite` at a register's offset asks for. -/
theorem operation_memWrite (r : RegName) (v : Word) : (PinsIn.memWrite r.offset v).operation = r.writeOp v := by
  simp [PinsIn.operation, PinsIn.memWrite, PinsIn.command, decodeCmd_mkCmd_write, decodeWrite]

/-- What `MemRead` at a register's offset asks for. -/
theorem operation_memRead (r : RegName) : (PinsIn.memRead r.offset).operation = r.readOp := by
  simp [PinsIn.operation, PinsIn.memRead, PinsIn.command, decodeCmd_mkCmd_read, decodeRead]

end Machine

end Sys2Proof
end

