-- ==== Sys2Proof/Laws/State.lean ====
section
/-! SUPPORT. The fields after each update: one lemma per field per update, true by unfolding, tagged for simp, so that no
proof unfolds a record update. -/

namespace Sys2Proof.Machine

namespace Wdt

variable (w : Wdt) (v : Word) (p : Params)

@[simp] theorem setIrq_control : w.setIrq.control = w.control := rfl
@[simp] theorem setIrq_reload : w.setIrq.reload = w.reload := rfl
@[simp] theorem setIrq_count : w.setIrq.count = w.count := rfl
@[simp] theorem setIrq_running : w.setIrq.running = w.running := rfl
@[simp] theorem setIrq_divcnt : w.setIrq.divcnt = w.divcnt := rfl
@[simp] theorem setIrq_irq : w.setIrq.irq = true := rfl
@[simp] theorem setIrq_rstReq : w.setIrq.rstReq = w.rstReq := rfl

@[simp] theorem clearIrq_control : w.clearIrq.control = w.control := rfl
@[simp] theorem clearIrq_reload : w.clearIrq.reload = w.reload := rfl
@[simp] theorem clearIrq_count : w.clearIrq.count = w.count := rfl
@[simp] theorem clearIrq_running : w.clearIrq.running = w.running := rfl
@[simp] theorem clearIrq_divcnt : w.clearIrq.divcnt = w.divcnt := rfl
@[simp] theorem clearIrq_irq : w.clearIrq.irq = false := rfl
@[simp] theorem clearIrq_rstReq : w.clearIrq.rstReq = w.rstReq := rfl

@[simp] theorem setRstReq_control : w.setRstReq.control = w.control := rfl
@[simp] theorem setRstReq_reload : w.setRstReq.reload = w.reload := rfl
@[simp] theorem setRstReq_count : w.setRstReq.count = w.count := rfl
@[simp] theorem setRstReq_running : w.setRstReq.running = w.running := rfl
@[simp] theorem setRstReq_divcnt : w.setRstReq.divcnt = w.divcnt := rfl
@[simp] theorem setRstReq_irq : w.setRstReq.irq = w.irq := rfl
@[simp] theorem setRstReq_rstReq : w.setRstReq.rstReq = true := rfl

@[simp] theorem clearRstReq_control : w.clearRstReq.control = w.control := rfl
@[simp] theorem clearRstReq_reload : w.clearRstReq.reload = w.reload := rfl
@[simp] theorem clearRstReq_count : w.clearRstReq.count = w.count := rfl
@[simp] theorem clearRstReq_running : w.clearRstReq.running = w.running := rfl
@[simp] theorem clearRstReq_divcnt : w.clearRstReq.divcnt = w.divcnt := rfl
@[simp] theorem clearRstReq_irq : w.clearRstReq.irq = w.irq := rfl
@[simp] theorem clearRstReq_rstReq : w.clearRstReq.rstReq = false := rfl

@[simp] theorem setControl_control : (w.setControl v).control = v := rfl
@[simp] theorem setControl_reload : (w.setControl v).reload = w.reload := rfl
@[simp] theorem setControl_count : (w.setControl v).count = w.count := rfl
@[simp] theorem setControl_running : (w.setControl v).running = w.running := rfl
@[simp] theorem setControl_divcnt : (w.setControl v).divcnt = 0#15 := rfl
@[simp] theorem setControl_irq : (w.setControl v).irq = w.irq := rfl
@[simp] theorem setControl_rstReq : (w.setControl v).rstReq = w.rstReq := rfl

@[simp] theorem setCount_control : (w.setCount v).control = w.control := rfl
@[simp] theorem setCount_reload : (w.setCount v).reload = w.reload := rfl
@[simp] theorem setCount_count : (w.setCount v).count = v := rfl
@[simp] theorem setCount_running : (w.setCount v).running = w.running := rfl
@[simp] theorem setCount_divcnt : (w.setCount v).divcnt = 0#15 := rfl
@[simp] theorem setCount_irq : (w.setCount v).irq = w.irq := rfl
@[simp] theorem setCount_rstReq : (w.setCount v).rstReq = w.rstReq := rfl

@[simp] theorem start_control : w.start.control = w.control := rfl
@[simp] theorem start_reload : w.start.reload = w.reload := rfl
@[simp] theorem start_count : w.start.count = w.count := rfl
@[simp] theorem start_running : w.start.running = true := rfl
@[simp] theorem start_divcnt : w.start.divcnt = 0#15 := rfl
@[simp] theorem start_irq : w.start.irq = w.irq := rfl
@[simp] theorem start_rstReq : w.start.rstReq = w.rstReq := rfl

@[simp] theorem stop_control : w.stop.control = w.control := rfl
@[simp] theorem stop_reload : w.stop.reload = w.reload := rfl
@[simp] theorem stop_count : w.stop.count = w.count := rfl
@[simp] theorem stop_running : w.stop.running = false := rfl
@[simp] theorem stop_divcnt : w.stop.divcnt = w.divcnt := rfl
@[simp] theorem stop_irq : w.stop.irq = w.irq := rfl
@[simp] theorem stop_rstReq : w.stop.rstReq = w.rstReq := rfl

@[simp] theorem setReload_control : (w.setReload v).control = w.control := rfl
@[simp] theorem setReload_reload : (w.setReload v).reload = v := rfl
@[simp] theorem setReload_count : (w.setReload v).count = w.count := rfl
@[simp] theorem setReload_running : (w.setReload v).running = w.running := rfl
@[simp] theorem setReload_divcnt : (w.setReload v).divcnt = w.divcnt := rfl
@[simp] theorem setReload_irq : (w.setReload v).irq = w.irq := rfl
@[simp] theorem setReload_rstReq : (w.setReload v).rstReq = w.rstReq := rfl

@[simp] theorem enterInterrupt_control : w.enterInterrupt.control = w.control := rfl
@[simp] theorem enterInterrupt_reload : w.enterInterrupt.reload = w.reload := rfl
@[simp] theorem enterInterrupt_count : w.enterInterrupt.count = w.reload := rfl
@[simp] theorem enterInterrupt_running : w.enterInterrupt.running = true := rfl
@[simp] theorem enterInterrupt_divcnt : w.enterInterrupt.divcnt = 0#15 := rfl
@[simp] theorem enterInterrupt_irq : w.enterInterrupt.irq = true := rfl
@[simp] theorem enterInterrupt_rstReq : w.enterInterrupt.rstReq = w.rstReq := rfl

@[simp] theorem requestReset_control : w.requestReset.control = w.control := rfl
@[simp] theorem requestReset_reload : w.requestReset.reload = w.reload := rfl
@[simp] theorem requestReset_count : w.requestReset.count = w.count := rfl
@[simp] theorem requestReset_running : w.requestReset.running = w.running := rfl
@[simp] theorem requestReset_divcnt : w.requestReset.divcnt = w.divcnt := rfl
@[simp] theorem requestReset_irq : w.requestReset.irq = w.irq := rfl
@[simp] theorem requestReset_rstReq : w.requestReset.rstReq = true := rfl

@[simp] theorem acknowledge_control : w.acknowledge.control = w.control := rfl
@[simp] theorem acknowledge_reload : w.acknowledge.reload = w.reload := rfl
@[simp] theorem acknowledge_count : w.acknowledge.count = w.count := rfl
@[simp] theorem acknowledge_running : w.acknowledge.running = w.running := rfl
@[simp] theorem acknowledge_divcnt : w.acknowledge.divcnt = w.divcnt := rfl
@[simp] theorem acknowledge_irq : w.acknowledge.irq = false := rfl
@[simp] theorem acknowledge_rstReq : w.acknowledge.rstReq = w.rstReq := rfl

@[simp] theorem resetTo_control : (w.resetTo p).control = p.resetControl := rfl
@[simp] theorem resetTo_reload : (w.resetTo p).reload = p.resetReload := rfl
@[simp] theorem resetTo_count : (w.resetTo p).count = p.resetCount := rfl
@[simp] theorem resetTo_running : (w.resetTo p).running = false := rfl
@[simp] theorem resetTo_divcnt : (w.resetTo p).divcnt = 0#15 := rfl
@[simp] theorem resetTo_irq : (w.resetTo p).irq = false := rfl
@[simp] theorem resetTo_rstReq : (w.resetTo p).rstReq = false := rfl

@[simp] theorem afterReset_control : (Wdt.afterReset p).control = p.resetControl := rfl
@[simp] theorem afterReset_reload : (Wdt.afterReset p).reload = p.resetReload := rfl
@[simp] theorem afterReset_count : (Wdt.afterReset p).count = p.resetCount := rfl
@[simp] theorem afterReset_running : (Wdt.afterReset p).running = false := rfl
@[simp] theorem afterReset_divcnt : (Wdt.afterReset p).divcnt = 0#15 := rfl
@[simp] theorem afterReset_irq : (Wdt.afterReset p).irq = false := rfl
@[simp] theorem afterReset_rstReq : (Wdt.afterReset p).rstReq = false := rfl

@[simp] theorem getCount_eq : w.getCount = w.count := rfl

/-- RESET leaves the state that `State.afterReset` starts from. -/
theorem resetTo_eq_afterReset : w.resetTo p = Wdt.afterReset p := rfl

end Wdt

namespace State

variable (s : State) (f : Wdt → Wdt) (ins : List PinsIn) (v : Word) (d : Diag)

@[simp] theorem onWdt_wdt : (s.onWdt f).wdt = f s.wdt := rfl
@[simp] theorem onWdt_out : (s.onWdt f).out = s.out := rfl
@[simp] theorem onWdt_inputs : (s.onWdt f).inputs = s.inputs := rfl
@[simp] theorem onWdt_edge : (s.onWdt f).edge = s.edge := rfl
@[simp] theorem onWdt_params : (s.onWdt f).params = s.params := rfl

@[simp] theorem takeEdge_wdt : s.takeEdge.wdt = s.wdt := rfl
@[simp] theorem takeEdge_out : s.takeEdge.out = s.out := rfl
@[simp] theorem takeEdge_inputs : s.takeEdge.inputs = s.inputs.tail := rfl
@[simp] theorem takeEdge_edge : s.takeEdge.edge = s.edge + 1 := rfl
@[simp] theorem takeEdge_params : s.takeEdge.params = s.params := rfl

@[simp] theorem present_wdt : (s.present ins).wdt = s.wdt := rfl
@[simp] theorem present_out : (s.present ins).out = s.out := rfl
@[simp] theorem present_inputs : (s.present ins).inputs = ins := rfl
@[simp] theorem present_edge : (s.present ins).edge = s.edge := rfl
@[simp] theorem present_params : (s.present ins).params = s.params := rfl

@[simp] theorem replyRead_wdt : (s.replyRead v d).wdt = s.wdt := rfl
@[simp] theorem replyRead_out : (s.replyRead v d).out = ⟨some v, d⟩ := rfl
@[simp] theorem replyRead_inputs : (s.replyRead v d).inputs = s.inputs := rfl
@[simp] theorem replyRead_edge : (s.replyRead v d).edge = s.edge := rfl
@[simp] theorem replyRead_params : (s.replyRead v d).params = s.params := rfl

@[simp] theorem replyNoData_wdt : (s.replyNoData d).wdt = s.wdt := rfl
@[simp] theorem replyNoData_out : (s.replyNoData d).out = ⟨none, d⟩ := rfl
@[simp] theorem replyNoData_inputs : (s.replyNoData d).inputs = s.inputs := rfl
@[simp] theorem replyNoData_edge : (s.replyNoData d).edge = s.edge := rfl
@[simp] theorem replyNoData_params : (s.replyNoData d).params = s.params := rfl

@[simp] theorem timePhase_wdt : s.timePhase.wdt = s.wdt.timePhase s.params.divDecode := rfl
@[simp] theorem timePhase_out : s.timePhase.out = s.out := rfl
@[simp] theorem timePhase_inputs : s.timePhase.inputs = s.inputs := rfl
@[simp] theorem timePhase_edge : s.timePhase.edge = s.edge := rfl
@[simp] theorem timePhase_params : s.timePhase.params = s.params := rfl

theorem pinsNow_cons {i : PinsIn} {rest : List PinsIn} (h : s.inputs = i :: rest) : s.pinsNow = i := by
  simp [pinsNow, h]

theorem pinsNow_nil (h : s.inputs = []) : s.pinsNow = .idle := by simp [pinsNow, h]

@[simp] theorem present_cons_pinsNow (i : PinsIn) (rest : List PinsIn) : (s.present (i :: rest)).pinsNow = i := rfl

end State

end Sys2Proof.Machine
end

