-- ==== Sys2Proof/Laws/Ops.lean ====
section
/-! SUPPORT. What each shared operation does, said once: the period's bounds, the dispatcher by mode, the tick by count,
the time phase by what falls due, and the CONTROL and COUNT writes by the enable bit. -/

namespace Sys2Proof.Machine

/-! ## The period -/

theorem divider_cases (d : DivDecode) (c : Word) :
    divider d c = 16 ∨ divider d c = 32 ∨ divider d c = 64 ∨ divider d c = 128 := by
  cases d
  · simp only [divider, Config.divTable]; split_ifs <;> simp
  · simp [divider]

/-- The period is at least 16 cycles (R78, R79). -/
theorem sixteen_le_period (d : DivDecode) (c : Word) : 16 ≤ period d c := by
  have h := (prescaler c).isLt
  unfold period
  rcases divider_cases d c with e | e | e | e <;> rw [e] <;> omega

/-- The period is at most 32768 cycles (R78). -/
theorem period_le (d : DivDecode) (c : Word) : period d c ≤ 32768 := by
  have h := (prescaler c).isLt
  unfold period
  rcases divider_cases d c with e | e | e | e <;> rw [e] <;> omega

theorem period_pos (d : DivDecode) (c : Word) : 0 < period d c := by
  have := sixteen_le_period d c; omega

namespace Wdt

variable {d : DivDecode} {w : Wdt} {v : Word}

/-! ## The dispatcher -/

theorem expire_of_irqEn (h : irqEn w.control = true) : w.expire = w.enterInterrupt := by simp [expire, h]

theorem expire_of_rstEn (h : irqEn w.control = false) (h' : rstEn w.control = true) :
    w.expire = w.requestReset := by simp [expire, h, h']

theorem expire_of_noMode (h : irqEn w.control = false) (h' : rstEn w.control = false) : w.expire = w := by
  simp [expire, h, h']

/-- The three outcomes of EXPIRE (R96). -/
theorem expire_cases (w : Wdt) :
    (irqEn w.control = true ∧ w.expire = w.enterInterrupt) ∨
    (irqEn w.control = false ∧ rstEn w.control = true ∧ w.expire = w.requestReset) ∨
    (irqEn w.control = false ∧ rstEn w.control = false ∧ w.expire = w) := by
  cases h : irqEn w.control <;> cases h' : rstEn w.control <;> simp [expire, h, h']

@[simp] theorem expire_control : w.expire.control = w.control := by
  rcases expire_cases w with ⟨-, e⟩ | ⟨-, -, e⟩ | ⟨-, -, e⟩ <;> rw [e] <;> rfl

@[simp] theorem expire_reload : w.expire.reload = w.reload := by
  rcases expire_cases w with ⟨-, e⟩ | ⟨-, -, e⟩ | ⟨-, -, e⟩ <;> rw [e] <;> rfl

/-! ## The tick -/

/-- A tick with a count above 1 only decrements it (R89). -/
theorem tick_of_two_le (h : 2 ≤ w.count.toNat) : w.tick = { w with count := w.count - 1#32 } := by
  have h0 : w.count ≠ 0#32 := by rintro e; simp [e] at h
  have h1 : w.count - 1#32 ≠ 0#32 := by
    intro e
    have := congrArg BitVec.toNat e
    rw [BitVec.toNat_sub_of_le (by simp [BitVec.le_def]; omega)] at this
    simp at this; omega
  simp [tick, decrement, zeroTest, h0, h1]

/-- A tick with a count of 1 or 0 expires: the count is 0, the engine stops, the dispatcher acts (R89, R90). -/
theorem tick_of_le_one (h : w.count.toNat ≤ 1) :
    w.tick = expire { w with count := 0#32, running := false } := by
  by_cases h0 : w.count = 0#32
  · have e : w = { w with count := 0#32 } := by cases w; simp_all
    rw [tick, decrement, if_pos h0, zeroTest, if_pos h0, stop]
    rw [e]
  · have h1 : w.count = 1#32 := by
      apply BitVec.eq_of_toNat_eq
      have : w.count.toNat ≠ 0 := fun e => h0 (BitVec.eq_of_toNat_eq (by simpa using e))
      simp; omega
    simp [tick, decrement, zeroTest, h1, stop]

@[simp] theorem tick_control : w.tick.control = w.control := by
  rcases Nat.lt_or_ge 1 w.count.toNat with h | h
  · rw [tick_of_two_le h]
  · rw [tick_of_le_one h]; simp

@[simp] theorem tick_reload : w.tick.reload = w.reload := by
  rcases Nat.lt_or_ge 1 w.count.toNat with h | h
  · rw [tick_of_two_le h]
  · rw [tick_of_le_one h]; simp

/-! ## One clock cycle -/

theorem tickDue_iff : w.tickDue d = true ↔ period d w.control ≤ w.divcnt.toNat + 1 := by simp [tickDue]

theorem tickDue_eq_false : w.tickDue d = false ↔ w.divcnt.toNat + 1 < period d w.control := by simp [tickDue]

theorem advance_of_due (h : w.tickDue d = true) : w.advance d = tick { w with divcnt := 0#15 } := by simp [advance, h]

theorem advance_of_not_due (h : w.tickDue d = false) : w.advance d = { w with divcnt := w.divcnt + 1#15 } := by
  simp [advance, h]

/-- An increment of `divcnt` that ADVANCE makes does not wrap (R88, R94). -/
theorem divcnt_succ (h : w.tickDue d = false) : (w.divcnt + 1#15).toNat = w.divcnt.toNat + 1 := by
  have := tickDue_eq_false.1 h
  have := period_le d w.control
  simp [BitVec.toNat_add]; omega

/-- All the time phase can do (R104, R106): nothing but end the `rst_req` pulse while stopped, one cycle of the period,
one decrement, or an expiry. -/
theorem timePhase_cases (d : DivDecode) (w : Wdt) :
    (w.running = false ∧ w.timePhase d = w.clearRstReq) ∨
    (w.running = true ∧ w.tickDue d = false ∧
      w.timePhase d = { w with divcnt := w.divcnt + 1#15, rstReq := false }) ∨
    (w.running = true ∧ w.tickDue d = true ∧ 2 ≤ w.count.toNat ∧
      w.timePhase d = { w with count := w.count - 1#32, divcnt := 0#15, rstReq := false }) ∨
    (w.running = true ∧ w.tickDue d = true ∧ w.count.toNat ≤ 1 ∧
      w.timePhase d = expire { w with count := 0#32, running := false, divcnt := 0#15, rstReq := false }) := by
  rcases Bool.eq_false_or_eq_true w.running with hr | hr
  · have ht : w.timePhase d = advance d w.clearRstReq := by simp [timePhase, hr]
    rcases Bool.eq_false_or_eq_true (w.tickDue d) with hd | hd
    · rw [advance_of_due (by exact hd)] at ht
      rcases Nat.lt_or_ge 1 w.count.toNat with hc | hc
      · exact .inr (.inr (.inl ⟨hr, hd, hc, by rw [ht, tick_of_two_le (by exact hc)]; rfl⟩))
      · exact .inr (.inr (.inr ⟨hr, hd, hc, by rw [ht, tick_of_le_one (by exact hc)]; rfl⟩))
    · exact .inr (.inl ⟨hr, hd, by rw [ht, advance_of_not_due (by exact hd)]; rfl⟩)
  · exact .inl ⟨hr, by simp [timePhase, hr]⟩

theorem timePhase_of_stopped (h : w.running = false) : w.timePhase d = w.clearRstReq := by simp [timePhase, h]

@[simp] theorem timePhase_control : (w.timePhase d).control = w.control := by
  rcases timePhase_cases d w with ⟨-, e⟩ | ⟨-, -, e⟩ | ⟨-, -, -, e⟩ | ⟨-, -, -, e⟩ <;> rw [e] <;> simp

@[simp] theorem timePhase_reload : (w.timePhase d).reload = w.reload := by
  rcases timePhase_cases d w with ⟨-, e⟩ | ⟨-, -, e⟩ | ⟨-, -, -, e⟩ | ⟨-, -, -, e⟩ <;> rw [e] <;> simp

/-! ## CONTROL and COUNT writes -/

/-- The three rows of WR_CONTROL (R68, R75). -/
theorem writeControl_cases (w : Wdt) (v : Word) :
    (en w.control = false ∧ en v = true ∧
      w.writeControl v = { w with control := v, count := w.reload, running := true, divcnt := 0#15 }) ∨
    (en w.control = true ∧ en v = false ∧
      w.writeControl v = { w with control := v, running := false, divcnt := 0#15 }) ∨
    (en v = en w.control ∧ w.writeControl v = { w with control := v, divcnt := 0#15 }) := by
  cases h : en w.control <;> cases h' : en v <;>
    simp [writeControl, enableEdge, h, h', onEnableEdge, setControl, setCount, start, stop]

@[simp] theorem writeControl_control : (w.writeControl v).control = v := rfl

@[simp] theorem writeControl_divcnt : (w.writeControl v).divcnt = 0#15 := rfl

@[simp] theorem writeControl_reload : (w.writeControl v).reload = w.reload := by
  rcases writeControl_cases w v with ⟨-, -, e⟩ | ⟨-, -, e⟩ | ⟨-, e⟩ <;> rw [e]

@[simp] theorem writeControl_irq : (w.writeControl v).irq = w.irq := by
  rcases writeControl_cases w v with ⟨-, -, e⟩ | ⟨-, -, e⟩ | ⟨-, e⟩ <;> rw [e]

@[simp] theorem writeControl_rstReq : (w.writeControl v).rstReq = w.rstReq := by
  rcases writeControl_cases w v with ⟨-, -, e⟩ | ⟨-, -, e⟩ | ⟨-, e⟩ <;> rw [e]

/-- Both rows of WR_COUNT (R72, R75). -/
theorem writeCount_eq (w : Wdt) (v : Word) :
    w.writeCount v = { w with count := v, divcnt := 0#15, running := w.running && en w.control } := by
  cases h : en w.control <;> simp [writeCount, h, setCount, stop]

@[simp] theorem writeCount_control : (w.writeCount v).control = w.control := by rw [writeCount_eq]

@[simp] theorem writeCount_reload : (w.writeCount v).reload = w.reload := by rw [writeCount_eq]

@[simp] theorem writeCount_count : (w.writeCount v).count = v := by rw [writeCount_eq]

@[simp] theorem writeCount_divcnt : (w.writeCount v).divcnt = 0#15 := by rw [writeCount_eq]

@[simp] theorem writeCount_running : (w.writeCount v).running = (w.running && en w.control) := by rw [writeCount_eq]

@[simp] theorem writeCount_irq : (w.writeCount v).irq = w.irq := by rw [writeCount_eq]

@[simp] theorem writeCount_rstReq : (w.writeCount v).rstReq = w.rstReq := by rw [writeCount_eq]

end Wdt

end Sys2Proof.Machine
end

