-- ==== Sys2Proof/Laws/Step.lean ====
section
/-! SUPPORT. What an operation, an edge and a run do, as functions: no operation stops, so `exec`, `step` and `run`
answer the next state that `performed`, `afterEdge` and its iterates name. -/

namespace Sys2Proof.Machine

/-- What an operation does to the block's seven fields. -/
def effect (p : Params) (i : Instr) (w : Wdt) : Wdt :=
  match i with
  | .idle | .rdControl | .rdReload | .rdCount | .rdAck | .rdUnmapped _ | .wrUnmapped _ _ => w
  | .wrControl v => w.writeControl v
  | .wrReload v  => w.setReload v
  | .wrCount v   => w.writeCount v
  | .wrAck _     => w.acknowledge
  | .advance     => w.advance p.divDecode
  | .tick        => w.tick
  | .expire      => w.expire
  | .reset       => w.resetTo p

/-- What an operation leaves on the output latches. -/
def reply (i : Instr) (w : Wdt) (o : BusOut) : BusOut :=
  match i with
  | .rdControl      => ⟨some w.control, .noError⟩
  | .rdReload       => ⟨some w.reload, .noError⟩
  | .rdCount        => ⟨some w.count, .noError⟩
  | .rdAck          => ⟨some 0#32, .rdAck⟩
  | .rdUnmapped _   => ⟨some 0#32, .rdUnmapped⟩
  | .wrUnmapped _ _ => ⟨none, .wrUnmapped⟩
  | .idle | .wrControl _ | .wrReload _ | .wrCount _ | .wrAck _ | .reset => ⟨none, .noError⟩
  | .advance | .tick | .expire => o

/-- The state an operation answers. -/
def performed (i : Instr) (s : State) : State :=
  { s with wdt := effect s.params i s.wdt, out := reply i s.wdt s.out }

/-- No operation stops (R52, R112). -/
theorem exec_eq (i : Instr) (s : State) : exec i s = .next (performed i s) := by cases i <;> rfl

/-- The block's state after the time phase and the operation of an edge. -/
def Wdt.edge (p : Params) (i : PinsIn) (w : Wdt) : Wdt :=
  if i.rst then w.resetTo p else effect p (decodeCmd i.cmd i.wdata) (w.timePhase p.divDecode)

/-- The state an edge answers. -/
def State.afterEdge (s : State) : State :=
  if s.pinsNow.rst then performed .reset s.takeEdge
  else performed (decodeCmd s.pinsNow.cmd s.pinsNow.wdata) s.takeEdge.timePhase

/-- No edge stops (R104: `Step` is total). -/
theorem step_eq (s : State) : step s = .next s.afterEdge := by
  unfold step State.afterEdge
  split <;> exact exec_eq _ _

theorem step_eq_iff {s t : State} : step s = .next t ↔ s.afterEdge = t := by simp [step_eq]

@[simp] theorem afterEdge_wdt (s : State) : s.afterEdge.wdt = s.wdt.edge s.params s.pinsNow := by
  unfold State.afterEdge Wdt.edge
  split <;> rfl

@[simp] theorem afterEdge_params (s : State) : s.afterEdge.params = s.params := by
  unfold State.afterEdge; split <;> rfl

@[simp] theorem afterEdge_inputs (s : State) : s.afterEdge.inputs = s.inputs.tail := by
  unfold State.afterEdge; split <;> rfl

@[simp] theorem afterEdge_edge (s : State) : s.afterEdge.edge = s.edge + 1 := by
  unfold State.afterEdge; split <;> rfl

/-- The bus operations leave the output latches by their reply alone. -/
theorem afterEdge_out (s : State) :
    s.afterEdge.out =
      if s.pinsNow.rst then ⟨none, .noError⟩
      else reply (decodeCmd s.pinsNow.cmd s.pinsNow.wdata) (s.wdt.timePhase s.params.divDecode) s.out := by
  unfold State.afterEdge; split <;> rfl

/-! ## Runs -/

/-- The state after `n` edges. -/
def State.afterEdges (n : Nat) (s : State) : State := State.afterEdge^[n] s

@[simp] theorem afterEdges_zero (s : State) : s.afterEdges 0 = s := rfl

theorem afterEdges_succ (n : Nat) (s : State) : s.afterEdges (n + 1) = s.afterEdge.afterEdges n := rfl

theorem afterEdges_succ' (n : Nat) (s : State) : s.afterEdges (n + 1) = (s.afterEdges n).afterEdge :=
  Function.iterate_succ_apply' _ _ _

theorem afterEdges_add (m n : Nat) (s : State) : s.afterEdges (m + n) = (s.afterEdges n).afterEdges m :=
  Function.iterate_add_apply _ _ _ _

/-- No run stops (R112). -/
theorem run_eq (n : Nat) (s : State) : run n s = .next (s.afterEdges n) := by
  induction n generalizing s with
  | zero => rfl
  | succ n ih =>
    have h : Sys2Proof.core.step s = .next s.afterEdge := step_eq s
    refine (Host.Core.run.eq_2 Sys2Proof.core s n).trans ?_
    rw [h]
    exact ih _

theorem run_eq_iff {n : Nat} {s t : State} : run n s = .next t ↔ s.afterEdges n = t := by simp [run_eq]

@[simp] theorem afterEdges_params (n : Nat) (s : State) : (s.afterEdges n).params = s.params := by
  induction n with
  | zero => rfl
  | succ n ih => rw [afterEdges_succ', afterEdge_params, ih]

@[simp] theorem afterEdges_edge (n : Nat) (s : State) : (s.afterEdges n).edge = s.edge + n := by
  induction n with
  | zero => rfl
  | succ n ih => rw [afterEdges_succ', afterEdge_edge, ih]; omega

@[simp] theorem afterEdges_inputs (n : Nat) (s : State) : (s.afterEdges n).inputs = s.inputs.drop n := by
  induction n with
  | zero => rfl
  | succ n ih => rw [afterEdges_succ', afterEdge_inputs, ih, List.tail_drop]

/-- The pins at the edge after `n` edges are those listed at place `n`, and idle where none is listed. -/
theorem afterEdges_pinsNow (n : Nat) (s : State) :
    (s.afterEdges n).pinsNow = (s.inputs[n]?).getD .idle := by
  rw [State.pinsNow, afterEdges_inputs, List.headD_eq_head?_getD, List.head?_drop]

/-! ## Decoded commands are bus operations -/

theorem decodeCmd_isBus (c : Cmd) (v : Word) : (decodeCmd c v).isBus = true := by
  unfold decodeCmd decodeRead decodeWrite
  split
  · split <;> split <;> first | rfl | (rename_i r _; cases r <;> rfl)
  · rfl

/-- The pins of an edge without request decode to IDLE. -/
theorem decodeCmd_idle (v : Word) : decodeCmd 0#6 v = .idle := rfl

theorem quiet_iff {i : PinsIn} : i.quiet = true ↔ i.rst = false ∧ (decodeCmd i.cmd i.wdata).isQuiet = true := by
  simp [PinsIn.quiet]

/-- A quiet operation leaves CONTROL, the count, the tick period, `running` and `rst_req` alone. -/
theorem effect_of_isQuiet {p : Params} {i : Instr} (h : i.isQuiet = true) (w : Wdt) :
    (effect p i w).control = w.control ∧ (effect p i w).count = w.count ∧ (effect p i w).divcnt = w.divcnt ∧
    (effect p i w).running = w.running ∧ (effect p i w).rstReq = w.rstReq := by
  cases i <;> simp [effect, Instr.isQuiet] at h ⊢

end Sys2Proof.Machine
end

