-- ==== Sys2Proof/Laws/Edge.lean ====
section
/-! SUPPORT. What one edge can do, said once: reset, or the time phase and one bus operation on it; the fields the time
phase writes in terms of the events of Safety.lean; and the edges that carry no CONTROL or COUNT write. -/

namespace Sys2Proof.Machine

variable {s : State}

theorem operation_of_rst (h : s.pinsNow.rst = true) : s.pinsNow.operation = .reset := by simp [PinsIn.operation, h]

theorem operation_of_not_rst (h : s.pinsNow.rst = false) :
    s.pinsNow.operation = decodeCmd s.pinsNow.cmd s.pinsNow.wdata := by simp [PinsIn.operation, h]

theorem operation_isBus (h : s.pinsNow.rst = false) : s.pinsNow.operation.isBus = true := by
  rw [operation_of_not_rst h]; exact decodeCmd_isBus _ _

/-- All an edge can do (R104). -/
theorem edge_cases (s : State) :
    (s.pinsNow.rst = true ∧ s.pinsNow.operation = .reset ∧ s.afterEdge.wdt = s.wdt.resetTo s.params ∧
      s.afterEdge.out = ⟨none, .noError⟩) ∨
    (s.pinsNow.rst = false ∧ s.pinsNow.operation.isBus = true ∧
      s.afterEdge.wdt = effect s.params s.pinsNow.operation (s.wdt.timePhase s.params.divDecode) ∧
      s.afterEdge.out = reply s.pinsNow.operation (s.wdt.timePhase s.params.divDecode) s.out) := by
  rcases Bool.eq_false_or_eq_true s.pinsNow.rst with h | h
  · exact .inl ⟨h, operation_of_rst h, by simp [Wdt.edge, h], by simp [afterEdge_out, h]⟩
  · exact .inr ⟨h, operation_isBus h, by simp [Wdt.edge, h, operation_of_not_rst h],
      by simp [afterEdge_out, h, operation_of_not_rst h]⟩

theorem edge_of_not_rst (h : s.pinsNow.rst = false) :
    s.afterEdge.wdt = effect s.params s.pinsNow.operation (s.wdt.timePhase s.params.divDecode) := by
  simp [Wdt.edge, h, operation_of_not_rst h]

/-- The decrement of a count above 1, as a number. -/
theorem ofNat_pred_eq {c : Word} (h : 2 ≤ c.toNat) : BitVec.ofNat 32 (c.toNat - 1) = c - 1#32 := by
  apply BitVec.eq_of_toNat_eq
  rw [BitVec.toNat_sub_of_le (by simp [BitVec.le_def]; omega)]
  have := c.isLt
  simp; omega

/-- What the time phase leaves in the fields it writes, by the events of its edge (R106). -/
theorem timePhase_fields (h : s.pinsNow.rst = false) :
    (s.wdt.timePhase s.params.divDecode).count =
      (if s.expiresNow && irqEn s.wdt.control then s.wdt.reload
       else if s.ticksNow then BitVec.ofNat 32 (s.wdt.count.toNat - 1) else s.wdt.count) ∧
    (s.wdt.timePhase s.params.divDecode).irq = (s.wdt.irq || (s.expiresNow && irqEn s.wdt.control)) ∧
    (s.wdt.timePhase s.params.divDecode).rstReq =
      (s.expiresNow && !irqEn s.wdt.control && rstEn s.wdt.control) ∧
    (s.wdt.timePhase s.params.divDecode).running = (s.wdt.running && (!s.expiresNow || irqEn s.wdt.control)) := by
  rcases Wdt.timePhase_cases s.params.divDecode s.wdt with ⟨hr, e⟩ | ⟨hr, hd, e⟩ | ⟨hr, hd, hc, e⟩ | ⟨hr, hd, hc, e⟩
  · rw [e]; simp [State.expiresNow, State.ticksNow, hr]
  · rw [e]; simp [State.expiresNow, State.ticksNow, hd]
  · have hn : ¬ s.wdt.count.toNat ≤ 1 := by omega
    rw [e]; simp [State.expiresNow, State.ticksNow, hd, hr, h, hn, ofNat_pred_eq hc]
  · have h0 : s.wdt.count.toNat - 1 = 0 := by omega
    rw [e]
    rcases Wdt.expire_cases { s.wdt with count := 0#32, running := false, divcnt := 0#15, rstReq := false }
      with ⟨a, e⟩ | ⟨a, b, e⟩ | ⟨a, b, e⟩ <;> rw [e] <;> simp only [] at a <;> try simp only [] at b
    · simp [State.expiresNow, State.ticksNow, hd, hr, h, hc, a]
    · simp [State.expiresNow, State.ticksNow, hd, hr, h, hc, a, b, h0]
    · simp [State.expiresNow, State.ticksNow, hd, hr, h, hc, a, b, h0]

/-! ## Quiet edges -/

theorem pinsNow_quiet (h : ∀ i ∈ s.inputs, i.quiet = true) : s.pinsNow.quiet = true := by
  rcases hs : s.inputs with _ | ⟨i, r⟩
  · rw [State.pinsNow_nil _ hs]; rfl
  · rw [State.pinsNow_cons _ hs]; exact h i (by simp [hs])

/-- What holds of all listed inputs holds of those listed later. -/
theorem inputs_afterEdges {P : PinsIn → Prop} (h : ∀ i ∈ s.inputs, P i) (n : Nat) :
    ∀ i ∈ (s.afterEdges n).inputs, P i := by
  intro i hi
  rw [afterEdges_inputs] at hi
  exact h i (List.mem_of_mem_drop hi)

/-- A quiet edge leaves the engine as the time phase does. -/
theorem quiet_edge (h : s.pinsNow.quiet = true) :
    s.afterEdge.wdt.control = s.wdt.control ∧
    s.afterEdge.wdt.count = (s.wdt.timePhase s.params.divDecode).count ∧
    s.afterEdge.wdt.divcnt = (s.wdt.timePhase s.params.divDecode).divcnt ∧
    s.afterEdge.wdt.running = (s.wdt.timePhase s.params.divDecode).running ∧
    s.afterEdge.wdt.rstReq = (s.wdt.timePhase s.params.divDecode).rstReq := by
  obtain ⟨h1, h2⟩ := quiet_iff.1 h
  have := effect_of_isQuiet (p := s.params) h2 (s.wdt.timePhase s.params.divDecode)
  simpa [Wdt.edge, h1] using this

/-- A quiet edge at which the count reaches zero: the three outcomes (R100). -/
theorem quiet_expiry (hq : s.pinsNow.quiet = true) (hx : s.expiresNow = true) :
    s.afterEdge.wdt.control = s.wdt.control ∧ s.afterEdge.wdt.divcnt = 0#15 ∧
    s.afterEdge.wdt.running = irqEn s.wdt.control ∧
    s.afterEdge.wdt.count = (if irqEn s.wdt.control then s.wdt.reload else 0#32) ∧
    s.afterEdge.wdt.rstReq = (!irqEn s.wdt.control && rstEn s.wdt.control) := by
  obtain ⟨q1, q2, q3, q4, q5⟩ := quiet_edge hq
  rw [q1, q2, q3, q4, q5]
  simp only [State.expiresNow, State.ticksNow, Bool.and_eq_true, Bool.not_eq_true', decide_eq_true_eq] at hx
  obtain ⟨⟨⟨-, hr⟩, hd⟩, hc⟩ := hx
  rcases Wdt.timePhase_cases s.params.divDecode s.wdt with ⟨h1, e⟩ | ⟨h1, h2, e⟩ | ⟨h1, h2, h3, e⟩ | ⟨h1, h2, h3, e⟩
  · rw [hr] at h1; cases h1
  · rw [hd] at h2; cases h2
  · omega
  · rw [e]
    unfold Wdt.expire
    simp only []
    cases h : irqEn s.wdt.control <;> cases h' : rstEn s.wdt.control <;> simp

/-- A quiet edge without a RELOAD write keeps RELOAD. -/
theorem quiet_edge_reload (h : s.pinsNow.quiet = true) (h' : ∀ v, s.pinsNow.operation ≠ .wrReload v) :
    s.afterEdge.wdt.reload = s.wdt.reload := by
  obtain ⟨h1, h2⟩ := quiet_iff.1 h
  rw [edge_of_not_rst h1]
  rw [← operation_of_not_rst h1] at h2
  generalize s.pinsNow.operation = i at h2 h'
  cases i <;> simp [effect, Instr.isQuiet] at h2 ⊢
  exact absurd rfl (h' _)

end Sys2Proof.Machine
end

