-- ==== Sys2Proof/Laws/IdleTime.lean ====
section
/-! SUPPORT. The phase of the tick period and the distance to the expiry: their bounds, and that the coming edge does not
tell a `divcnt` past the period from its last cycle. And what the writes of R138 ask for. -/

namespace Sys2Proof.Machine

namespace Wdt

variable {d : DivDecode} {w : Wdt}

theorem phase_lt : w.phase d < period d w.control := by
  have := period_pos d w.control
  unfold phase; omega

/-- Where R25 (b) holds the phase is `divcnt`. -/
theorem phase_of_inPeriod (h : w.divcnt.toNat < period d w.control) : w.phase d = w.divcnt.toNat := by
  unfold phase; omega

/-- The expiry of a running engine is at least one edge away. -/
theorem toExpiry_pos : 0 < w.toExpiry d := by
  have h := phase_lt (d := d) (w := w)
  have : period d w.control ≤ max w.count.toNat 1 * period d w.control := Nat.le_mul_of_pos_left _ (by omega)
  unfold toExpiry; omega

theorem phase_toNat : (BitVec.ofNat 15 (w.phase d)).toNat = w.phase d := by
  have h := phase_lt (d := d) (w := w)
  have := period_le d w.control
  simp; omega

/-- The time phase of a running engine whose period runs out. -/
theorem timePhase_of_due (hr : w.running = true) (hd : w.tickDue d = true) :
    w.timePhase d = tick { w with divcnt := 0#15, rstReq := false } := by
  have : w.clearRstReq.tickDue d = true := hd
  rw [timePhase, if_pos hr, advance, if_pos this]
  rfl

/-- A running engine acts at the coming edge as it does from its phase (log 23). -/
theorem timePhase_at_phase (hr : w.running = true) :
    w.timePhase d = ({ w with divcnt := BitVec.ofNat 15 (w.phase d) } : Wdt).timePhase d := by
  by_cases h : w.divcnt.toNat < period d w.control
  · rw [phase_of_inPeriod h, BitVec.ofNat_toNat, BitVec.setWidth_eq]
  · have due : w.tickDue d = true := by rw [tickDue, decide_eq_true_eq]; omega
    have e : w.phase d = period d w.control - 1 := by unfold phase; omega
    generalize hv : ({ w with divcnt := BitVec.ofNat 15 (w.phase d) } : Wdt) = v
    have hc : v.control = w.control := by rw [← hv]
    have hn : v.divcnt.toNat = period d w.control - 1 := by rw [← e, ← phase_toNat, ← hv]
    have due' : v.tickDue d = true := by rw [tickDue, decide_eq_true_eq, hc, hn]; omega
    rw [timePhase_of_due hr due, timePhase_of_due (by rw [← hv]; exact hr) due', ← hv]

end Wdt

namespace Restart

theorem control_operation (v : Word) : (Restart.control v).pins.operation = .wrControl v :=
  operation_memWrite .control v

theorem count_operation (v : Word) : (Restart.count v).pins.operation = .wrCount v := operation_memWrite .count v

@[simp] theorem controlAfter_control (c v : Word) : (Restart.control v).controlAfter c = v := rfl
@[simp] theorem controlAfter_count (c v : Word) : (Restart.count v).controlAfter c = c := rfl
@[simp] theorem countAfter_control (n v : Word) : (Restart.control v).countAfter n = n := rfl
@[simp] theorem countAfter_count (n v : Word) : (Restart.count v).countAfter n = v := rfl

end Restart

@[simp] theorem Round.length_edges (r : Round) : r.edges.length = r.before.length + 1 := by simp [Round.edges]

end Sys2Proof.Machine
end

