-- ==== Sys2Proof/Laws/Invariant.lean ====
section
/-! SUPPORT. What keeps the invariants of 10_state.md R25: the time phase, and each bus operation on a state where a
pending reset request has the enable bit set (as the time phase leaves it). -/

namespace Sys2Proof.Machine

/-- The time phase keeps R25, and a reset request it raises finds the stored enable bit set. -/
theorem timePhase_keeps_inv (d : DivDecode) (w : Wdt) (h : w.Inv d) :
    (w.timePhase d).Inv d ∧ ((w.timePhase d).rstReq = true → en w.control = true) := by
  obtain ⟨h1, h2, h3, h4⟩ := h
  have pp := period_pos d w.control
  rcases Wdt.timePhase_cases d w with ⟨hr, e⟩ | ⟨hr, hd, e⟩ | ⟨hr, hd, hc, e⟩ | ⟨hr, hd, hc, e⟩ <;> rw [e]
  · exact ⟨⟨by simp [hr], h2, fun _ => h3 hr, by simp⟩, by simp⟩
  · have := Wdt.tickDue_eq_false.1 hd
    exact ⟨⟨h1, by rw [Wdt.divcnt_succ hd]; exact this, by simp [hr], by simp⟩, by simp⟩
  · exact ⟨⟨h1, by simpa using pp, by simp, by simp⟩, by simp⟩
  · have hen := h1 hr
    generalize hv : ({ w with count := 0#32, running := false, divcnt := 0#15, rstReq := false } : Wdt) = v
    have hvc : v.control = w.control := by rw [← hv]
    have hvd : v.divcnt = 0#15 := by rw [← hv]
    have hvr : v.running = false := by rw [← hv]
    have hvq : v.rstReq = false := by rw [← hv]
    rcases Wdt.expire_cases v with ⟨a, e⟩ | ⟨a, b, e⟩ | ⟨a, b, e⟩ <;> rw [e]
    · exact ⟨⟨by simp [hvc, hen], by simpa [hvc] using pp, by simp, by simp [hvq]⟩, by simp [hvq]⟩
    · exact ⟨⟨by simp [hvr], by simpa [hvc, hvd] using pp, by simp [hvd], by simp [hvr]⟩, fun _ => hen⟩
    · exact ⟨⟨by simp [hvr], by simpa [hvc, hvd] using pp, by simp [hvd], by simp [hvq]⟩, by simp [hvq]⟩

/-- A bus operation keeps R25 where a pending reset request has the stored enable bit set: then no single CONTROL write
can start the engine (R25 (d)). -/
theorem busEffect_keeps_inv (p : Params) (i : Instr) (w : Wdt) (hb : i.isBus = true) (h : w.Inv p.divDecode)
    (hq : w.rstReq = true → en w.control = true) : (effect p i w).Inv p.divDecode := by
  obtain ⟨h1, h2, h3, h4⟩ := h
  cases i with
  | wrControl v =>
    have pp := period_pos p.divDecode v
    rcases Wdt.writeControl_cases w v with ⟨e1, e2, e⟩ | ⟨e1, e2, e⟩ | ⟨e1, e⟩ <;> simp only [effect, e]
    · exact ⟨fun _ => e2, by simpa using pp, by simp, fun hr => by rw [hq hr] at e1; cases e1⟩
    · exact ⟨by simp, by simpa using pp, by simp, by simp⟩
    · exact ⟨by simpa [e1] using h1, by simpa using pp, by simp, h4⟩
  | wrCount v =>
    have pp := period_pos p.divDecode w.control
    simp only [effect, Wdt.writeCount_eq]
    exact ⟨by simp, by simpa using pp, by simp, fun hr => by simp [h4 hr]⟩
  | advance => cases hb
  | tick => cases hb
  | expire => cases hb
  | reset => cases hb
  | _ => exact ⟨h1, h2, h3, h4⟩

end Sys2Proof.Machine
end

