-- ==== Sys2Proof/Laws/PerInstr.lean ====
section
/-! SUPPORT. Statements about every operation, one lemma per constructor. Family `RoundTrip`: a well-formed operation's
command and data word decode to it (30_encoding.md R46, R47), and an operation without an encoding is internal (R56). -/

namespace Sys2Proof.Laws.RoundTrip

/-- The words of a well-formed operation decode to it, and only an internal operation has none. -/
def Statement (i : Instr) : Prop :=
  i.wf = true → (∀ cv, encode i = some cv → decodeCmd cv.1 cv.2 = i) ∧ (encode i = none → i.isBus = false)

theorem of_read {i : Instr} (r : RegName) (he : encode i = some (mkCmd true false r.offset, 0#32))
    (hd : decodeRead r.offset = i) : Statement i := by
  refine fun _ => ⟨fun cv h => ?_, fun h => by rw [h] at he; cases he⟩
  rw [he] at h; cases h
  rw [decodeCmd_mkCmd_read, hd]

theorem of_write {i : Instr} (r : RegName) (v : Word) (he : encode i = some (mkCmd true true r.offset, v))
    (hd : decodeWrite r.offset v = i) : Statement i := by
  refine fun _ => ⟨fun cv h => ?_, fun h => by rw [h] at he; cases he⟩
  rw [he] at h; cases h
  rw [decodeCmd_mkCmd_write, hd]

theorem of_internal {i : Instr} (he : encode i = none) (hb : i.isBus = false) : Statement i :=
  fun _ => ⟨fun cv h => by (rw [he] at h; cases h), fun _ => hb⟩

theorem idle : Statement .idle := by
  refine fun _ => ⟨fun cv h => ?_, fun h => by cases h⟩
  cases h; rfl

theorem rdControl : Statement .rdControl := of_read .control rfl (by simp [decodeRead, RegName.readOp])

theorem rdReload : Statement .rdReload := of_read .reload rfl (by simp [decodeRead, RegName.readOp])

theorem rdCount : Statement .rdCount := of_read .count rfl (by simp [decodeRead, RegName.readOp])

theorem rdAck : Statement .rdAck := of_read .ack rfl (by simp [decodeRead, RegName.readOp])

theorem rdUnmapped (addr : Offset) : Statement (.rdUnmapped addr) := by
  refine fun hw => ⟨fun cv h => ?_, fun h => by cases h⟩
  cases h
  rw [decodeCmd_mkCmd_read, decodeRead, (regAt_eq_none addr).2 hw]

theorem wrControl (v : Word) : Statement (.wrControl v) := of_write .control v rfl (by simp [decodeWrite, RegName.writeOp])

theorem wrReload (v : Word) : Statement (.wrReload v) := of_write .reload v rfl (by simp [decodeWrite, RegName.writeOp])

theorem wrCount (v : Word) : Statement (.wrCount v) := of_write .count v rfl (by simp [decodeWrite, RegName.writeOp])

theorem wrAck (v : Word) : Statement (.wrAck v) := of_write .ack v rfl (by simp [decodeWrite, RegName.writeOp])

theorem wrUnmapped (addr : Offset) (v : Word) : Statement (.wrUnmapped addr v) := by
  refine fun hw => ⟨fun cv h => ?_, fun h => by cases h⟩
  cases h
  rw [decodeCmd_mkCmd_write, decodeWrite, (regAt_eq_none addr).2 hw]

theorem advance : Statement .advance := of_internal rfl rfl

theorem tick : Statement .tick := of_internal rfl rfl

theorem expire : Statement .expire := of_internal rfl rfl

theorem reset : Statement .reset := of_internal rfl rfl

end Sys2Proof.Laws.RoundTrip
end

