-- ==== Sys2Proof/Tests/Slice0.lean ====
section
/-! SUPPORT. Tests. Expected results are transcribed from 95_test_vectors.md (T<n>, V<n>, §3) or written out by hand from
the rule cited; the second half holds, for each statement with hypotheses, inputs that meet them. -/

namespace Sys2Proof.Tests

open Sys2Proof Sys2Proof.Machine

/-! ## Helpers -/

/-- The spec's tuple `(control, reload, count, running, divcnt, irq, rst_req)` (95_test_vectors.md §0). -/
def tup (c r n : Word) (run : Bool) (d : BitVec 15) (irq rq : Bool) : Wdt := ⟨c, r, n, run, d, irq, rq⟩

/-- A machine with the block in `w`, `ins` on the coming edges, and the default parameters. -/
def mach (w : Wdt) (ins : List PinsIn) : State := ⟨w, ⟨none, .noError⟩, ins, 1, Params.default⟩

/-- The same with `DIV_DECODE = COLLAPSED`. -/
def machCollapsed (w : Wdt) : State := { mach w [] with params := { Params.default with divDecode := .collapsed } }

/-- The block's state and the reply in an outcome. -/
def seen : Host.Outcome State Fault Refusal → Option (Wdt × Option Word × Diag)
  | .next t    => some (t.wdt, t.out.rdata, t.out.diag)
  | .fault _   => none
  | .refused _ => none

/-- One edge with the command `c` and the data `v`. -/
def edge1 (w : Wdt) (c : Cmd) (v : Word) : Option (Wdt × Option Word × Diag) := seen (step (mach w [.command c v]))

/-- One operation. -/
def op1 (w : Wdt) (i : Instr) : Option (Wdt × Option Word × Diag) := seen (exec i (mach w []))

/-! ## Well-formedness -/

/-- The one check of `Instr.wf` refuses a mapped offset, in either of the two terms it reads (R30, R64, R74). -/
theorem test_wf_refuses_mapped_offsets :
    Instr.wf (.rdUnmapped 0x0) = false ∧ Instr.wf (.rdUnmapped 0x4) = false ∧
    Instr.wf (.wrUnmapped 0x8 7) = false ∧ Instr.wf (.wrUnmapped 0xC 7) = false := by decide

theorem test_wf_accepts_the_others :
    Instr.wf (.rdUnmapped 0x1) = true ∧ Instr.wf (.wrUnmapped 0xE 7) = true ∧ Instr.wf (.wrControl 7) = true ∧
    Instr.wf .reset = true := by decide

/-! ## Decode, from words written out bit by bit (R46, R47, §2.5) -/

theorem test_decode_idle : decodeCmd 0b000000 9 = .idle ∧ decodeCmd 0b011100 9 = .idle := by decide

theorem test_decode_reads :
    decodeCmd 0b100000 9 = .rdControl ∧ decodeCmd 0b100100 9 = .rdReload ∧ decodeCmd 0b101000 9 = .rdCount ∧
    decodeCmd 0b101100 9 = .rdAck ∧ decodeCmd 0b100001 9 = .rdUnmapped 1 ∧ decodeCmd 0b101111 9 = .rdUnmapped 15 := by
  decide

theorem test_decode_writes :
    decodeCmd 0b110000 0x21 = .wrControl 0x21 ∧ decodeCmd 0b110100 0x3E8 = .wrReload 0x3E8 ∧
    decodeCmd 0b111000 0x4D = .wrCount 0x4D ∧ decodeCmd 0b111100 0x55 = .wrAck 0x55 ∧
    decodeCmd 0b110010 0x1234 = .wrUnmapped 2 0x1234 ∧ decodeCmd 0b111101 0x1234 = .wrUnmapped 13 0x1234 := by decide

/-- `wdata` little-endian after the command byte: `0xDEAD0028` is `28 00 AD DE` (§0, R34; log 8). -/
theorem test_decode_bytes :
    decodeBytes [0x30, 0x28, 0x00, 0xAD, 0xDE, 0x77] = .ok (.wrControl 0xDEAD0028, [0x77]) ∧
    decodeTableWord 8 0x28 = some .rdCount ∧ decodeTableWord 40 0x0000003E834 = some (.wrReload 0x3E8) :=
  ⟨by rfl, by decide, by decide⟩

theorem test_decode_bytes_rejects :
    decodeBytes [0x40, 0, 0, 0, 0] = .error .notASixBitCommand ∧ decodeBytes [0x30, 0, 0, 0] = .error .truncated ∧
    decodeTableWord 8 0x80 = none := ⟨by rfl, by rfl, by decide⟩

theorem test_encode :
    encode (.wrControl 0x21) = some (0x30, 0x21) ∧ encode (.rdUnmapped 6) = some (0x26, 0) ∧ encode .tick = none ∧
    encodeBytes (.wrReload 0x3E8) = some [0x34, 0xE8, 0x03, 0x00, 0x00] := by decide

/-! ## One step each -/

/-- T5: the edge after a reset request ends the pulse. -/
theorem test_idle_ends_the_pulse :
    edge1 (tup 0x21 1000 0 false 0 false true) 0x00 0 =
      some (tup 0x21 1000 0 false 0 false false, none, .noError) := by decide

/-- §2.5, last lines: `sel = 0` with `we = 1` is IDLE. -/
theorem test_idle_with_we :
    edge1 (tup 0x21 1000 7 true 5 true false) 0x10 0 =
      some (tup 0x21 1000 7 true 6 true false, none, .noError) := by decide

/-- T15. -/
theorem test_rdControl :
    edge1 (tup 0xDEAD0025 1 2 false 0 false false) 0x20 0 =
      some (tup 0xDEAD0025 1 2 false 0 false false, some 0xDEAD0025, .noError) := by decide

/-- T16. -/
theorem test_rdReload :
    edge1 (tup 0x21 0x12345678 2 false 0 false false) 0x24 0 =
      some (tup 0x21 0x12345678 2 false 0 false false, some 0x12345678, .noError) := by decide

/-- T17. -/
theorem test_rdCount_stopped :
    edge1 (tup 0x21 5 0xCAFE false 0 false false) 0x28 0 =
      some (tup 0x21 5 0xCAFE false 0 false false, some 0xCAFE, .noError) := by decide

/-- T18. -/
theorem test_rdCount_at_a_tick :
    edge1 (tup 0x21 5 7 true 15 false false) 0x28 0 =
      some (tup 0x21 5 6 true 0 false false, some 6, .noError) := by decide

/-- T20. -/
theorem test_rdAck :
    edge1 (tup 0x24 5 3 true 2 true false) 0x2C 0 = some (tup 0x24 5 3 true 3 true false, some 0, .rdAck) := by decide

/-- T21. -/
theorem test_rdUnmapped_9 :
    edge1 (tup 0x21 5 0xCAFE false 0 false false) 0x29 0 =
      some (tup 0x21 5 0xCAFE false 0 false false, some 0, .rdUnmapped) := by decide

/-- T22. -/
theorem test_rdUnmapped_E :
    edge1 (tup 0x21 5 0xCAFE false 0 false false) 0x2E 0 =
      some (tup 0x21 5 0xCAFE false 0 false false, some 0, .rdUnmapped) := by decide

/-- T23. -/
theorem test_wrControl_starts :
    edge1 (tup 0x1 1000 7 false 0 false false) 0x30 0x21 =
      some (tup 0x21 1000 1000 true 0 false false, none, .noError) := by decide

/-- T26. -/
theorem test_wrControl_restarts_the_period :
    edge1 (tup 0x20 1000 5 true 9 false false) 0x30 0x28 =
      some (tup 0x28 1000 5 true 0 false false, none, .noError) := by decide

/-- T31. -/
theorem test_wrReload :
    edge1 (tup 0x24 1000 7 true 9 false false) 0x34 0x1F4 =
      some (tup 0x24 500 7 true 10 false false, none, .noError) := by decide

/-- T32. -/
theorem test_wrReload_at_an_expiry :
    edge1 (tup 0x24 1000 1 true 15 false false) 0x34 0x1F4 =
      some (tup 0x24 500 1000 true 0 true false, none, .noError) := by decide

/-- T35. -/
theorem test_wrCount_does_not_start :
    edge1 (tup 0x21 1000 0 false 0 false false) 0x38 9 =
      some (tup 0x21 1000 9 false 0 false false, none, .noError) := by decide

/-- T36. -/
theorem test_wrCount_stops_a_disabled_engine :
    edge1 (tup 0x1 1000 3 true 4 false false) 0x38 9 =
      some (tup 0x1 1000 9 false 0 false false, none, .noError) := by decide

/-- T40. -/
theorem test_wrAck :
    edge1 (tup 0x24 5 3 true 2 true false) 0x3C 0xFFFFFFFF =
      some (tup 0x24 5 3 true 3 false false, none, .noError) := by decide

/-- T42. -/
theorem test_wrAck_at_an_expiry :
    edge1 (tup 0x24 5 1 true 15 true false) 0x3C 0 = some (tup 0x24 5 5 true 0 false false, none, .noError) := by decide

/-- T43. -/
theorem test_wrUnmapped_5 :
    edge1 (tup 0x24 5 3 true 2 true false) 0x35 0x1234 =
      some (tup 0x24 5 3 true 3 true false, none, .wrUnmapped) := by decide

/-- T44. -/
theorem test_wrUnmapped_D :
    edge1 (tup 0x24 5 3 true 2 true false) 0x3D 0 =
      some (tup 0x24 5 3 true 3 true false, none, .wrUnmapped) := by decide

/-- T13: one cycle before the last of the largest period. -/
theorem test_advance_counts :
    op1 (tup 0xFF39 5 3 true 32766 false false) .advance =
      some (tup 0xFF39 5 3 true 32767 false false, none, .noError) := by decide

/-- T14b: with `COLLAPSED`, divider code 11 ticks at cycle 16. -/
theorem test_advance_collapsed :
    seen (step (machCollapsed (tup 0x38 10 5 true 15 false false))) =
      some (tup 0x38 10 4 true 0 false false, none, .noError) := by decide

/-- T14. -/
theorem test_tick_largest_count :
    op1 (tup 0x21 0 0xFFFFFFFF true 0 false false) .tick =
      some (tup 0x21 0 0xFFFFFFFE true 0 false false, none, .noError) := by decide

/-- T9: a zero count is not decremented, and expires. -/
theorem test_tick_zero_count :
    op1 (tup 0x21 0 0 true 0 false false) .tick = some (tup 0x21 0 0 false 0 false true, none, .noError) := by decide

/-- T7: both mode bits, interrupt wins. -/
theorem test_expire_both_modes :
    edge1 (tup 0x25 1000 1 true 15 false false) 0x00 0 =
      some (tup 0x25 1000 1000 true 0 true false, none, .noError) := by decide

/-- T4: reset mode. -/
theorem test_expire_reset_mode :
    op1 (tup 0x21 1000 0 false 0 false false) .expire =
      some (tup 0x21 1000 0 false 0 false true, none, .noError) := by decide

/-- T45: RESET overrides the write of its edge. -/
theorem test_reset_overrides :
    seen (step (mach (tup 0x24 5 3 true 2 true false) [⟨true, 0x38, 9⟩])) =
      some (tup 0x8021 32768 32768 false 0 false false, none, .noError) := by decide

/-- T46: RESET at what would be an expiry: no request. -/
theorem test_reset_at_an_expiry :
    seen (step (mach (tup 0x21 5 1 true 15 false false) [⟨true, 0x00, 0⟩])) =
      some (tup 0x8021 32768 32768 false 0 false false, none, .noError) := by decide

/-! ## The pure functions and the closed form (§3) -/

theorem test_fields :
    prescaler 0xFF39 = 255 ∧ en 0xFF39 = true ∧ divSel 0xFF39 = 3 ∧ irqEn 0xFF39 = false ∧ rstEn 0xFF39 = true ∧
    prescaler 0x1710 = 23 ∧ en 0x1710 = false ∧ divSel 0x1710 = 2 ∧ irqEn 0x24 = true ∧ rstEn 0xFFFF00C2 = false := by
  decide

theorem test_period_and_frequency :
    period .fourWay 0x8021 = 2064 ∧ freqHz .fourWay 0x8021 = 11627 ∧ period .fourWay 0x9518 = 19200 ∧
    freqHz .fourWay 0xFF39 = 732 ∧ period .collapsed 0xFF39 = 4096 ∧ freqHz .collapsed 0x608 = 214285 := by decide

theorem test_idleFor :
    (tup 0x221 7 10 true 5 false false).idleFor .fourWay 474 = tup 0x221 7 1 true 47 false false ∧
    (tup 0x221 7 10 true 5 false false).idleFor .fourWay 475 = tup 0x221 7 0 false 0 false true ∧
    (tup 0x221 7 10 true 5 false false).idleFor .fourWay 100000 = tup 0x221 7 0 false 0 false false ∧
    (tup 0x224 7 10 true 5 false false).idleFor .fourWay 811 = tup 0x224 7 7 true 0 true false := by decide

/-- 93 U7 with R106: a restored running state with `divcnt` 20 and `N = 16` ticks at its first edge, by `>=` (log 23). -/
theorem test_idleFor_past_the_period :
    (tup 0x21 7 1 true 20 false false).idleFor .fourWay 1 = tup 0x21 7 0 false 0 false true ∧
    edge1 (tup 0x21 7 1 true 20 false false) 0x00 0 = some (tup 0x21 7 0 false 0 false true, none, .noError) := by
  decide

/-- V1, rows e1 to e4: the edges and encodings of the lines. -/
theorem test_trace_notation :
    traceEdges [.reset, .wr (.named .reload) 1000] ++ PseudoOp.edges (.start 0x21) =
      [.reset, .command 0x34 0x3E8, .command 0x30 0x01, .command 0x30 0x21] := by decide

/-- P3, rows e2 and e3: what a read line expects, and that another expectation is not met. -/
theorem test_trace_expectations :
    traceMeets [.rd (.named .ack) (some 0) (some 1)] State.reset = true ∧
    traceMeets [.rd (.literal 0x6) (some 0) (some 2)] State.reset = true ∧
    traceMeets [.rd (.literal 0x6) (some 0) (some 0)] State.reset = false := by decide

/-! ## Inputs that meet the hypotheses of the statements -/

/-- A stopped block with enable set, as after a reset. -/
def stopped : Wdt := tup 0x21 1000 7 false 0 false false

/-- A running block, `N = 16`, at cycle `d` of its period with the count `n`; CONTROL is `c`. -/
def runningAt (c n : Word) (d : BitVec 15) : Wdt := tup c 1000 n true d false false

/-- A read of COUNT on the pins, a quiet edge. -/
def rdCountPins : PinsIn := .memRead (RegName.offset .count)

/-- The edge of a machine is taken (`step` always answers). -/
theorem edge_taken (s : State) : ∃ t, step s = .next t := ⟨_, step_eq s⟩

theorem rdCountPins_quiet : rdCountPins.quiet = true ∧ ∀ v, rdCountPins.operation ≠ .wrReload v :=
  ⟨by decide, fun v h => by rw [show rdCountPins.operation = .rdCount by decide] at h; cases h⟩

theorem rdCountPins_listed : ∀ i ∈ [rdCountPins, rdCountPins], i.quiet = true ∧ ∀ v, i.operation ≠ .wrReload v := by
  intro i hi
  rw [show i = rdCountPins by simpa using hi]
  exact rdCountPins_quiet

theorem witness_OpcodeRowsCoverEveryCommandDisjointly :
    (⟨"RD_UNMAPPED", 0x22, 0x33⟩ : OpcodeRow) ∈ opcodeRows ∧ (0x2E#6 &&& 0x33 = 0x22) ∧
    decodeCmd 0x2E 5 = .rdUnmapped 14 ∧ decodeCmd 0x3F 5 = .wrUnmapped 15 5 ∧ decodeCmd 0x30 5 = .wrControl 5 ∧
    decodeCmd 0x34 5 = .wrReload 5 ∧ decodeCmd 0x38 5 = .wrCount 5 ∧ decodeCmd 0x3C 5 = .wrAck 5 := by decide

theorem witness_DecodeOfEncodeIsTheOperation :
    Instr.wf (.wrUnmapped 0xF 5) = true ∧ Instr.isBus (.wrUnmapped 0xF 5) = true ∧ Instr.isBus .advance = false ∧
    Instr.isBus .tick = false ∧ Instr.isBus .expire = false ∧ Instr.isBus .reset = false := by decide

theorem witness_EncodeOfDecodeKeepsTheExaminedPins :
    (0x3F#6).getLsbD 5 = true ∧ (0x3F#6).getLsbD 4 = true ∧ (0x20#6).getLsbD 5 = true ∧ (0x1F#6).getLsbD 5 = false := by
  decide

theorem witness_UnexaminedPinsDoNotMatter : (0x1F#6).getLsbD 5 = false ∧ (0x2F#6).getLsbD 4 = false := by decide

theorem witness_PlacedCommandRunsAtTheNextEdge :
    decodeTableWord 40 0x2130 = some (.wrControl 0x21) ∧ decodeTableWord 8 0x00 = some .idle := by decide

theorem witness_EdgeRunsResetOrTheDecodedCommand :
    (mach stopped [.reset]).inputs = .reset :: [] ∧ PinsIn.reset.rst = true ∧
    (mach stopped [rdCountPins, .idle]).inputs = rdCountPins :: [.idle] ∧ rdCountPins.rst = false ∧
    (mach stopped []).inputs = [] := by decide

theorem witness_IdleDoesNothingButTimePasses :
    (0x1F#6).getLsbD 5 = false ∧ (mach stopped [⟨false, 0x1F, 7⟩]).inputs = ⟨false, 0x1F, 7⟩ :: [] := by decide

theorem witness_ReadsReturnTheirTableRowAndChangeNothing :
    (0x1 : Offset) ∈ ([0x1, 0x2, 0x3, 0x5, 0x6, 0x7, 0x9, 0xA, 0xB, 0xD, 0xE, 0xF] : List Offset) := by decide

theorem witness_UnmappedWritesAreDropped :
    (0x3F#6 &&& 0x31 = 0x31) ∧ (0x32#6 &&& 0x33 = 0x32) ∧ (0x1#4).extractLsb' 0 2 ≠ 0 := by decide

/-- T23, T25, T27 for the three clauses of WR_CONTROL; T33, T34 for the two of WR_COUNT. -/
theorem witness_WritesDoTheirTableRow :
    (en 0x1 = false ∧ en 0x21 = true ∧
      op1 (tup 0x1 1000 7 false 0 false false) (.wrControl 0x21) =
        some (tup 0x21 1000 1000 true 0 false false, none, .noError)) ∧
    op1 (runningAt 0x21 7 9) (.wrControl 0x1) = some (tup 0x1 1000 7 false 0 false false, none, .noError) ∧
    op1 (runningAt 0x21 5 9) (.wrControl 0x21) = some (tup 0x21 1000 5 true 0 false false, none, .noError) ∧
    op1 (runningAt 0x21 3 12) (.wrCount 1000) = some (tup 0x21 1000 1000 true 0 false false, none, .noError) ∧
    op1 (tup 0x1 1000 3 false 0 false false) (.wrCount 0xABCD) =
      some (tup 0x1 1000 43981 false 0 false false, none, .noError) := by decide

theorem witness_WritesAreIdempotent :
    Instr.isWrite (.wrCount 9) = true ∧ ∃ t, exec (.wrCount 9) (mach stopped []) = .next t := ⟨by decide, _, rfl⟩

/-- The four clauses at the bounds where they meet: cycles 14 and 15 of 16, counts 2 and 1, and a zero count. -/
theorem witness_AdvanceCountsCyclesAndTickCountsDown :
    (runningAt 0x21 7 14).divcnt.toNat + 1 < period .fourWay 0x21 ∧
    period .fourWay 0x21 ≤ (runningAt 0x21 7 15).divcnt.toNat + 1 ∧
    2 ≤ (runningAt 0x21 2 0).count.toNat ∧ (runningAt 0x21 1 0).count.toNat ≤ 1 ∧
    (runningAt 0x21 0 0).count.toNat ≤ 1 := by decide

/-- T6, T4 and T8 as EXPIRE finds them: stopped, with a count of 0. -/
theorem witness_ExpireFollowsItsDecisionTable :
    op1 (tup 0x24 1000 0 false 0 false false) .expire = some (tup 0x24 1000 1000 true 0 true false, none, .noError) ∧
    (irqEn 0x21 = false ∧ rstEn 0x21 = true) ∧ (irqEn 0x20 = false ∧ rstEn 0x20 = false) ∧
    op1 (tup 0x20 1000 0 false 0 false false) .expire =
      some (tup 0x20 1000 0 false 0 false false, none, .noError) := by decide

theorem witness_ExpireNeverActsTwiceNorDoesBoth :
    (∃ t, exec .expire (mach (tup 0x24 9 0 false 0 true false) []) = .next t) ∧
    (mach (runningAt 0x24 1 15) []).expiresNow = true ∧ (∃ u, run 1 (mach (runningAt 0x24 1 15) []) = .next u) ∧
    ∃ u, run 15 (mach (runningAt 0x24 1 15) []) = .next u :=
  ⟨⟨_, rfl⟩, by decide, ⟨_, run_eq _ _⟩, ⟨_, run_eq _ _⟩⟩

theorem witness_ResetLeavesTheDefaultsFromAnyState :
    (∃ t, exec .reset (mach stopped []) = .next t) ∧ Params.default.wf = true ∧
    (mach stopped [.reset]).inputs = .reset :: [] ∧ PinsIn.reset.rst = true := ⟨⟨_, rfl⟩, by decide⟩

theorem witness_DividerDecodesByTheParameter :
    divSel 0x00 = 0b00 ∧ divSel 0x08 = 0b01 ∧ divSel 0x10 = 0b10 ∧ divSel 0x18 = 0b11 := by decide

/-- A running state and a stopped one that meet R25, and one with a reset request. -/
theorem witness_EveryEdgeKeepsTheInvariant :
    (mach (runningAt 0x21 7 15) []).Inv ∧ (mach stopped []).Inv ∧ (mach (tup 0x21 5 0 false 0 false true) []).Inv :=
  ⟨⟨by decide, by decide, by decide, by decide⟩, ⟨by decide, by decide, by decide, by decide⟩,
    ⟨by decide, by decide, by decide, by decide⟩⟩

theorem witness_ReachableStatesMeetTheInvariant :
    Reachable State.reset ∧
    Reachable (State.afterReset Params.default [.memWrite (RegName.offset .control) 1]).afterEdge :=
  ⟨.reset _ _ (by decide), .step _ _ (.reset _ _ (by decide)) (step_eq _)⟩

/-- The four rules about one edge ask only that the edge is taken: here one that writes CONTROL, one that expires in
interrupt mode, one that does so in reset mode, and one that acknowledges. -/
theorem witness_ControlAndReloadChangeOnlyByTheirWrites :
    (mach stopped [.memWrite (RegName.offset .control) 5]).pinsNow.operation = .wrControl 5 ∧
    ∃ t, step (mach stopped [.memWrite (RegName.offset .control) 5]) = .next t := ⟨by decide, edge_taken _⟩

theorem witness_CountMovesOnlyByItsRules :
    (mach (runningAt 0x24 1 15) []).expiresNow = true ∧ (mach (runningAt 0x24 2 15) []).ticksNow = true ∧
    (mach (tup 0x1 9 7 false 0 false false) [.memWrite (RegName.offset .control) 0x21]).startsNow = true ∧
    ∃ t, step (mach (runningAt 0x24 1 15) []) = .next t := ⟨by decide, by decide, by decide, edge_taken _⟩

theorem witness_IrqRisesAtExpiryFallsAtAckOrReset :
    (mach (runningAt 0x24 1 15) [.memWrite (RegName.offset .ack) 0]).pinsNow.operation = .wrAck 0 ∧
    ∃ t, step (mach (runningAt 0x24 1 15) [.memWrite (RegName.offset .ack) 0]) = .next t := ⟨by decide, edge_taken _⟩

theorem witness_ResetRequestFollowsAResetModeExpiryOnly :
    (mach (runningAt 0x21 1 15) []).expiresNow = true ∧ ∃ t, step (mach (runningAt 0x21 1 15) []) = .next t :=
  ⟨by decide, edge_taken _⟩

theorem witness_EngineStateMachine :
    stopped.running = false ∧ (runningAt 0x24 2 15).running = true ∧ Instr.isBus (.wrControl 0x21) = true ∧
    en 0x1 = false ∧ en 0x21 = true ∧ (runningAt 0x24 2 15).tickDue .fourWay = true ∧
    2 ≤ (runningAt 0x24 2 15).count.toNat ∧ (runningAt 0x24 1 15).count.toNat ≤ 1 ∧ irqEn 0x24 = true ∧
    irqEn 0x21 = false ∧ ∃ t, exec .reset (mach stopped []) = .next t :=
  ⟨by decide, by decide, by decide, by decide, by decide, by decide, by decide, by decide, by decide, by decide, _, rfl⟩

/-- A CONTROL write of 1 to 1 starts nothing (T24). -/
theorem witness_StoppedEngineStaysStoppedUntilStarted :
    stopped.running = false ∧
    (∀ k < 1, ∀ t, run k (mach stopped [.memWrite (RegName.offset .control) 0x21]) = .next t → t.startsNow = false) ∧
    ∃ u, run 1 (mach stopped [.memWrite (RegName.offset .control) 0x21]) = .next u := by
  refine ⟨rfl, fun k hk t ht => ?_, _, run_eq _ _⟩
  obtain rfl : k = 0 := by omega
  rw [run_eq_iff] at ht
  subst ht
  decide

/-- A machine at its last cycle of the period with the count `n` and one command on the pins. -/
def atTick (c n : Word) (i : PinsIn) : State := mach (runningAt c n 15) [i]

/-- The reads of R109 at the counts 2, 1 and 0, where its clauses meet. -/
theorem witness_CoincidencesOfTimeAndBus_reads :
    (atTick 0x24 2 rdCountPins).ticksNow = true ∧ (atTick 0x24 1 rdCountPins).ticksNow = true ∧
    (atTick 0x24 0 rdCountPins).ticksNow = true ∧ (atTick 0x20 1 rdCountPins).ticksNow = true ∧
    (atTick 0x24 1 rdCountPins).pinsNow.rst = false ∧ (atTick 0x24 1 rdCountPins).pinsNow.operation = .rdCount ∧
    irqEn 0x24 = true ∧ irqEn 0x20 = false :=
  ⟨by decide, by decide, by decide, by decide, by decide, by decide, by decide, by decide⟩

/-- The writes of R109: T39, T42, T30 and T32, at the counts 2 and 1. -/
theorem witness_CoincidencesOfTimeAndBus_writes :
    (atTick 0x21 2 (.memWrite (RegName.offset .count) 9)).pinsNow.operation = .wrCount 9 ∧
    (atTick 0x24 1 (.memWrite (RegName.offset .ack) 9)).pinsNow.operation = .wrAck 9 ∧
    (atTick 0x24 1 (.memWrite (RegName.offset .control) 4)).pinsNow.operation = .wrControl 4 ∧
    (atTick 0x24 1 (.memWrite (RegName.offset .reload) 500)).pinsNow.operation = .wrReload 500 ∧
    (atTick 0x24 1 (.memWrite (RegName.offset .control) 4)).ticksNow = true := by decide

theorem witness_CoincidencesOfTimeAndBus :
    en 0x24 = true ∧ en 0x21 = true ∧ en 4 = false ∧ irqEn 0x24 = true ∧ irqEn 0x21 = false ∧ rstEn 0x21 = true ∧
    ∃ t, step (atTick 0x24 1 rdCountPins) = .next t :=
  ⟨by decide, by decide, by decide, by decide, by decide, by decide, edge_taken _⟩

/-- T19 and T38: the reading at an interrupt-mode expiry, and the kick that comes too late. -/
theorem test_coincidences_at_an_expiry :
    edge1 (runningAt 0x24 1 15) 0x28 0 = some (tup 0x24 1000 1000 true 0 true false, some 1000, .noError) ∧
    edge1 (runningAt 0x21 1 15) 0x38 1000 = some (tup 0x21 1000 1000 false 0 false true, none, .noError) := by decide

/-- The state `A` of §3.3 at its last edge before the expiry, and a zero count at its. -/
theorem witness_ExpiryComesAfterCountTimesPeriod :
    (tup 0x221 7 10 true 5 false false).divcnt.toNat < period .fourWay 0x221 ∧
    474 < max (tup 0x221 7 10 true 5 false false).count.toNat 1 * period .fourWay 0x221 - 5 ∧
    15 < max (runningAt 0x21 0 0).count.toNat 1 * period .fourWay 0x21 - 0 ∧
    ∀ i ∈ [rdCountPins, rdCountPins], i.quiet = true := by decide

theorem witness_InterruptExpiriesRepeatForEver :
    (runningAt 0x24 1000 0).running = true ∧ (runningAt 0x24 1000 0).divcnt = 0 ∧
    (runningAt 0x24 1000 0).count = (runningAt 0x24 1000 0).reload ∧ irqEn 0x24 = true ∧
    (∀ i ∈ [rdCountPins, rdCountPins], i.quiet = true ∧ ∀ v, i.operation ≠ .wrReload v) ∧
    ∃ u, run 32000 (mach (runningAt 0x24 1000 0) [rdCountPins, rdCountPins]) = .next u :=
  ⟨by decide, by decide, by decide, by decide, rdCountPins_listed, _, run_eq _ _⟩

/-- State `B` of §3.3 over two expiries, and the last edge before its first; a running state past its period. -/
theorem witness_IdleTimeClosedForm :
    (∀ k < 811, (((mach (tup 0x224 7 10 true 5 false false) []).inputs[k]?).getD .idle).operation = .idle) ∧
    (tup 0x224 7 10 true 5 false false).divcnt.toNat < period .fourWay 0x224 ∧
    474 < (tup 0x224 7 10 true 5 false false).toExpiry .fourWay ∧
    period .fourWay 0x21 ≤ (runningAt 0x21 7 20).divcnt.toNat :=
  ⟨fun _ _ => by simp [mach]; decide, by decide, by decide, by decide⟩

theorem witness_EnablingWriteExpiresAfter16000Edges :
    en 0x1 = false ∧ en 0x21 = true ∧ en 0x24 = true ∧ prescaler 0x21 = 0 ∧ divSel 0x21 = 0b00 ∧
    (mach (tup 0x1 1000 7 false 0 false false)
      (.memWrite (RegName.offset .control) 0x21 :: [rdCountPins, rdCountPins])).inputs =
        .memWrite (RegName.offset .control) 0x21 :: [rdCountPins, rdCountPins] ∧
    ∀ i ∈ [rdCountPins, rdCountPins], i.quiet = true ∧ ∀ v, i.operation ≠ .wrReload v :=
  ⟨by decide, by decide, by decide, by decide, by decide, rfl, rdCountPins_listed⟩

theorem witness_KickMovesTheExpiry :
    (mach (runningAt 0x21 1 14) [.memWrite (RegName.offset .count) 0, rdCountPins]).Inv ∧
    (mach (runningAt 0x21 1 14) [.memWrite (RegName.offset .count) 0, rdCountPins]).expiresNow = false ∧
    rdCountPins.quiet = true ∧ 16 ≤ max (0 : Word).toNat 1 * period .fourWay 0x21 :=
  ⟨⟨by decide, by decide, by decide, by decide⟩, by decide, by decide, by decide⟩

/-- Rounds from cycle 1: thirteen quiet edges, the longest there may be at `N = 16`, before a CONTROL write that changes the
divider to 32 and keeps enable; thirty, the longest at `N = 32`, before a COUNT write of 0; none before the last. -/
def starvingRounds : List Round :=
  [⟨List.replicate 13 rdCountPins, .control 0x29⟩, ⟨List.replicate 30 rdCountPins, .count 0⟩, ⟨[], .control 0x20⟩]

theorem quiet_replicate (n : Nat) : ∀ i ∈ List.replicate n rdCountPins, i.quiet = true := by
  intro i hi
  rw [List.eq_of_mem_replicate hi]
  exact rdCountPins_quiet.1

theorem witness_ControlRewritesStarveTheTick :
    roundsInTime .fourWay 0x21 (runningAt 0x21 7 1).divcnt.toNat starvingRounds ∧ en 0x21 = true ∧
    starvingRounds ≠ [] ∧ 44 < (starvingRounds.flatMap Round.edges).length ∧
    ∃ u, run 44 (mach (runningAt 0x21 7 1) (starvingRounds.flatMap Round.edges ++ [])) = .next u := by
  refine ⟨⟨quiet_replicate 13, by decide, by decide, quiet_replicate 30, by decide, by decide, ?_⟩, by decide, by decide,
    by decide, _, run_eq _ _⟩
  exact ⟨by simp, by decide, by decide, trivial⟩

theorem witness_BootSequenceStartsTheEngine : en 0x1 = false ∧ en 0x21 = true := by decide

/-- START from a state no run reaches: running with the stored enable bit clear. -/
theorem witness_StartPseudoOperationStarts :
    (mach (runningAt 0x1 7 20) (PseudoOp.edges (.start 0x21) ++ [rdCountPins])).inputs =
      PseudoOp.edges (.start 0x21) ++ [rdCountPins] ∧
    en 0x21 = true ∧ stopped.running = false ∧
    ∃ t, step (mach stopped [.memWrite (RegName.offset .control) 0x21]) = .next t :=
  ⟨rfl, by decide, rfl, edge_taken _⟩

theorem witness_ReadsReturnTheMostRecentWrite :
    (mach stopped [.memWrite (RegName.offset .reload) 5, rdCountPins, .memRead (RegName.offset .reload)]).inputs =
      .memWrite (RegName.offset .reload) 5 :: [rdCountPins] ++ .memRead (RegName.offset .reload) :: [] ∧
    (∀ i ∈ [rdCountPins], i.operation ≠ .reset ∧ ∀ w, i.operation ≠ .wrReload w) ∧
    ∀ i ∈ [rdCountPins], i.operation ≠ .reset ∧ ∀ w, i.operation ≠ .wrControl w := by
  refine ⟨rfl, ?_, ?_⟩ <;> intro i hi <;>
    rw [show i.operation = .rdCount by rw [show i = rdCountPins by simpa using hi]; decide] <;> simp

theorem witness_ReadsAreInvisibleToTheBlock :
    List.Forall₂ (fun i j => i = j ∨ ((i.operation.isRead = true ∨ i.operation = .idle) ∧
      (j.operation.isRead = true ∨ j.operation = .idle))) [rdCountPins, .reset] [.idle, .reset] ∧
    (∃ t, run 2 ((mach stopped []).present [rdCountPins, .reset]) = .next t) ∧
    ∃ t, run 2 ((mach stopped []).present [.idle, .reset]) = .next t :=
  ⟨.cons (by decide) (.cons (.inl rfl) .nil), ⟨_, run_eq _ _⟩, ⟨_, run_eq _ _⟩⟩

/-- Two CONTROL words that differ in undocumented bits only, in a running block. -/
theorem witness_UndocumentedControlBitsHaveNoEffect :
    (0x21 : Word) &&& documentedMask = 0xFFFF00E3 &&& documentedMask ∧ (0x21 : Word) ≠ 0xFFFF00E3 ∧
    mach (runningAt 0xFFFF00E3 7 5) [] =
      { mach (runningAt 0x21 7 5) [] with wdt := { runningAt 0x21 7 5 with control := 0xFFFF00E3 } } ∧
    (∃ t, run 3 (mach (runningAt 0x21 7 5) []) = .next t) ∧ ∃ t, run 3 (mach (runningAt 0xFFFF00E3 7 5) []) = .next t :=
  ⟨by decide, by decide, rfl, ⟨_, run_eq _ _⟩, ⟨_, run_eq _ _⟩⟩

theorem witness_OutputsAreReadByNothing :
    (∃ t, step (mach (runningAt 0x24 1 15) []) = .next t) ∧
    ∃ u, step { mach (runningAt 0x24 1 15) [] with
      out := ⟨some 5, .rdAck⟩, wdt := { runningAt 0x24 1 15 with irq := true, rstReq := true } } = .next u :=
  ⟨edge_taken _, edge_taken _⟩

theorem witness_PinsAreRegistered :
    ({ mach stopped [] with out := ⟨some 7, .noError⟩ } : State).out.rdata = some 7 := rfl

theorem witness_SnapshotResumesExactly :
    State.reset.params = (mach (runningAt 0x21 7 5) []).params ∧
    State.reset.inputs = (mach (runningAt 0x21 7 5) []).inputs ∧
    (∃ t, run 9 (mach (runningAt 0x21 7 5) []) = .next t) ∧
    ∃ t, run 9 (State.reset.restore (mach (runningAt 0x21 7 5) []).save) = .next t :=
  ⟨rfl, rfl, ⟨_, run_eq _ _⟩, ⟨_, run_eq _ _⟩⟩

theorem witness_TraceLinesPresentTheirOperations :
    (0x1#4).extractLsb' 0 2 ≠ 0 ∧ (0xF#4).extractLsb' 0 2 ≠ 0 ∧
    ∃ t, step ((mach stopped []).present (TraceLine.edges (.rd (.named .count) (some 7) none))) = .next t :=
  ⟨by decide, by decide, edge_taken _⟩

theorem witness_RunLogListsTheEdgesOfEachPin :
    1 < 2 ∧ ∃ t, run (1 + 1) (mach (runningAt 0x24 1 15) [rdCountPins]) = .next t := ⟨by decide, _, run_eq _ _⟩

end Sys2Proof.Tests
end

section
/-! PROOFS. The family 30_encoding.md: where the operands of a decoded command come from and the table of R47; the
fields of a CONTROL word as shifts and masks (R50). -/

namespace Sys2Proof

/-! ## The operands of a decoded command -/

/-- Every operand of the operation is a pin of its request: the offset `a`, the data word `v` (R46, R47). -/
def Instr.OperandsFrom (a : Offset) (v : Word) : Instr → Prop
  | .rdUnmapped b   => b = a
  | .wrUnmapped b w => b = a ∧ w = v
  | .wrControl w | .wrReload w | .wrCount w | .wrAck w => w = v
  | .idle | .rdControl | .rdReload | .rdCount | .rdAck | .advance | .tick | .expire | .reset => True

theorem decodeRead_operandsFrom (a : Offset) (v : Word) : (decodeRead a).OperandsFrom a v := by
  unfold decodeRead
  cases regAt a with
  | none => exact rfl
  | some r => cases r <;> exact trivial

theorem decodeWrite_operandsFrom (a : Offset) (v : Word) : (decodeWrite a v).OperandsFrom a v := by
  unfold decodeWrite
  cases regAt a with
  | none => exact ⟨rfl, rfl⟩
  | some r => cases r <;> exact rfl

/-- An unmapped access carries the offset of its request, a write its data word (R47, R64, R74). -/
theorem operandsFrom_of_decodeCmd {c : Cmd} {v : Word} {i : Instr} (h : decodeCmd c v = i) :
    i.OperandsFrom (cmdAddr c) v := by
  subst h
  unfold decodeCmd
  split_ifs
  · exact decodeWrite_operandsFrom (cmdAddr c) v
  · exact decodeRead_operandsFrom (cmdAddr c) v
  · exact trivial

/-! ## The table of R47 -/

theorem mnemonic_decodeWrite_word (a : Offset) (v w : Word) :
    (decodeWrite a v).mnemonic = (decodeWrite a w).mnemonic := by
  unfold decodeWrite
  cases regAt a with
  | none => rfl
  | some r => cases r <;> rfl

/-- The data word does not decide which operation a command selects (R47). -/
theorem mnemonic_decodeCmd_word (c : Cmd) (v w : Word) : (decodeCmd c v).mnemonic = (decodeCmd c w).mnemonic := by
  unfold decodeCmd
  split_ifs
  · exact mnemonic_decodeWrite_word (cmdAddr c) v w
  · rfl
  · rfl

/-- Each row names the operation of the commands it matches (R47), here with a zero data word, so that the claim is
finite. -/
theorem mnemonic_of_row :
    ∀ r ∈ opcodeRows, ∀ c : Cmd, c &&& r.mask = r.pattern → (decodeCmd c 0).mnemonic = r.mnemonic := by decide

/-- The rows are disjoint and cover every command (R47). -/
theorem exactly_one_row_matches : ∀ c : Cmd, (opcodeRows.filter fun r => r.matchesCmd c).length = 1 := by decide

/-- How many of the 64 commands each row matches (R47). -/
theorem commands_per_row :
    opcodeRows.map (fun r => ((List.range 64).filter fun n => r.matchesCmd (BitVec.ofNat 6 n)).length) =
      [32, 1, 1, 1, 1, 8, 4, 1, 1, 1, 1, 8, 4] := by decide

/-- Settles O1: the rows are checked on the 64 commands, the data word being no part of the choice; the operands are
those of every decoded command. -/
theorem opcodeRowsCoverEveryCommandDisjointly : Obligations.OpcodeRowsCoverEveryCommandDisjointly := by
  refine ⟨fun r c v hr hm => ?_, exactly_one_row_matches, commands_per_row, rfl,
    fun _ _ _ h => operandsFrom_of_decodeCmd h, fun _ _ _ _ h => operandsFrom_of_decodeCmd h, fun c v w h => ?_⟩
  · rw [mnemonic_decodeCmd_word c v 0]
    exact mnemonic_of_row r hr c hm
  · rcases h with h | h | h | h <;> exact operandsFrom_of_decodeCmd h

/-! ## The fields of a word -/

namespace Machine

/-- A field of `len` bits, zero-extended, is a shift and a mask of `len` ones. -/
theorem zeroExtend_field (c : Word) (start len : Nat) :
    (c.extractLsb' start len).zeroExtend 32 = (c >>> start) &&& (BitVec.allOnes len).zeroExtend 32 := by
  ext i hi
  simp [BitVec.getElem_setWidth, BitVec.getLsbD_extractLsb', Bool.and_comm]

/-- A bit as a field of one bit. -/
theorem ofBool_bit (c : Word) (k : Nat) : BitVec.ofBool (c.getLsbD k) = c.extractLsb' k 1 := by
  ext i hi
  obtain rfl : i = 0 := by omega
  simp

/-- A bit, zero-extended, is a shift and a mask of one. -/
theorem zeroExtend_bit (c : Word) (k : Nat) : (BitVec.ofBool (c.getLsbD k)).zeroExtend 32 = (c >>> k) &&& 1 := by
  rw [ofBool_bit, zeroExtend_field]; rfl

/-- Masking with ones all over a field leaves the field alone. -/
theorem field_and_of_allOnes {m : Word} {start len : Nat} (h : m.extractLsb' start len = BitVec.allOnes len)
    (c : Word) : (c &&& m).extractLsb' start len = c.extractLsb' start len := by
  rw [BitVec.extractLsb'_and, h, BitVec.and_allOnes]

/-- Masking with a one at a bit leaves the bit alone. -/
theorem bit_and_of_one {m : Word} {k : Nat} (h : m.getLsbD k = true) (c : Word) :
    (c &&& m).getLsbD k = c.getLsbD k := by
  rw [BitVec.getLsbD_and, h, Bool.and_true]

/-- Settles O22: each field is a run of bits, of which the documented mask has every one set. -/
theorem controlFieldsAreShiftsAndMasks : Obligations.ControlFieldsAreShiftsAndMasks := by
  refine ⟨fun w v => ⟨w.setReload_reload v, w.setCount_count v⟩, fun c => ⟨zeroExtend_field c 8 8, zeroExtend_bit c 5,
    zeroExtend_field c 3 2, zeroExtend_bit c 2, ?_, rfl, field_and_of_allOnes (by decide) c, bit_and_of_one (by decide) c,
    field_and_of_allOnes (by decide) c, bit_and_of_one (by decide) c, bit_and_of_one (by decide) c⟩⟩
  rw [rstEn, zeroExtend_bit, BitVec.ushiftRight_zero]

end Machine

end Sys2Proof
end

section
/-! PROOFS. The family 42_frequency_engine.md: the tick frequency from the bounds of the period (R79, R80). -/

namespace Sys2Proof.Machine

theorem freqExact_pos (d : DivDecode) (c : Word) : 0 < freqExact d c :=
  div_pos (by norm_num [Config.baseClkHz]) (Nat.cast_pos.mpr (period_pos d c))

/-- The exact frequency is at least that of the largest period (R79). -/
theorem le_freqExact (d : DivDecode) (c : Word) : (24000000 : ℚ) / 32768 ≤ freqExact d c := by
  have hle : (period d c : ℚ) ≤ 32768 := by exact_mod_cast period_le d c
  exact div_le_div_of_nonneg_left (by norm_num) (Nat.cast_pos.mpr (period_pos d c)) hle

/-- The whole hertz are at least those of the largest period (R79, R80). -/
theorem le_freqHz (d : DivDecode) (c : Word) : 732 ≤ freqHz d c :=
  calc 732 = Config.baseClkHz / 32768 := rfl
    _ ≤ freqHz d c := Nat.div_le_div_left (period_le d c) (period_pos d c)

/-- The largest period: prescaler 255 and divider 128 (R78). -/
theorem period_largest : period .fourWay 0xFF39 = 32768 := by decide

/-- Settles O24: the period lies between 16 and 32768, and the clock divided by it is least at 32768. -/
theorem frequencyIsAlwaysDefined : Obligations.FrequencyIsAlwaysDefined := by
  refine ⟨fun d c => ⟨Nat.le_add_left 1 _, (prescaler c).isLt, divider_cases d c, rfl, sixteen_le_period d c,
    freqExact_pos d c, le_freqExact d c, le_freqHz d c⟩, ?_, by norm_num⟩
  rw [freqExact, period_largest]
  norm_num [Config.baseClkHz]

end Sys2Proof.Machine
end

section
/-! PROOFS. The family 70_reset_and_hazards.md: the countdown of a running engine over edges that write neither CONTROL
nor COUNT (R95), and the timing the source fixes (R150). -/

namespace Sys2Proof.Machine

/-! ## The distance to the expiry -/

namespace Wdt

variable {d : DivDecode} {w : Wdt}

/-- The distance right after the count was set and the period restarted: the whole count in periods (R95). -/
theorem toExpiry_of_restarted (h : w.divcnt = 0) : w.toExpiry d = max w.count.toNat 1 * period d w.control := by
  simp [toExpiry, phase, h]

/-- The distance is 1 exactly where the coming cycle ends the last period of the count. -/
theorem toExpiry_eq_one_iff : w.toExpiry d = 1 ↔ w.tickDue d = true ∧ w.count.toNat ≤ 1 := by
  have hN := sixteen_le_period d w.control
  rw [tickDue_iff, toExpiry, phase]
  rcases Nat.lt_or_ge 1 w.count.toNat with hc | hc
  · have : 2 * period d w.control ≤ max w.count.toNat 1 * period d w.control := Nat.mul_le_mul_right _ (by omega)
    omega
  · rw [Nat.max_eq_right hc]; omega

/-- While the expiry is not at the coming edge, the time phase brings it one edge nearer (R95). -/
theorem timePhase_toExpiry (hr : w.running = true) (h : w.toExpiry d ≠ 1) :
    (w.timePhase d).running = true ∧ (w.timePhase d).toExpiry d + 1 = w.toExpiry d := by
  rcases timePhase_cases d w with ⟨hs, -⟩ | ⟨-, hd, e⟩ | ⟨-, hd, hc, e⟩ | ⟨-, hd, hc, -⟩
  · simp [hr] at hs
  · have hlt := tickDue_eq_false.1 hd
    have hle : period d w.control ≤ max w.count.toNat 1 * period d w.control := Nat.le_mul_of_pos_left _ (by omega)
    rw [e]
    refine ⟨hr, ?_⟩
    simp only [toExpiry, phase, divcnt_succ hd]
    omega
  · have hpos := period_pos d w.control
    have hdue := tickDue_iff.1 hd
    have hpred : (w.count - 1#32).toNat = w.count.toNat - 1 := by
      rw [← ofNat_pred_eq hc, BitVec.toNat_ofNat]; omega
    have hmul : max w.count.toNat 1 * period d w.control =
        max (w.count.toNat - 1) 1 * period d w.control + period d w.control := by
      rw [← Nat.succ_mul]; congr 1; omega
    rw [e]
    refine ⟨hr, ?_⟩
    simp only [toExpiry, phase, hpred, hmul, BitVec.toNat_ofNat]
    omega
  · exact absurd (toExpiry_eq_one_iff.2 ⟨hd, hc⟩) h

end Wdt

/-! ## Quiet edges up to the expiry -/

variable {s : State}

/-- A running engine expires at a quiet edge exactly where its distance is 1. -/
theorem expiresNow_iff_toExpiry (hr : s.wdt.running = true) (hq : s.pinsNow.quiet = true) :
    s.expiresNow = true ↔ s.wdt.toExpiry s.params.divDecode = 1 := by
  rw [Wdt.toExpiry_eq_one_iff]
  simp [State.expiresNow, State.ticksNow, hr, (quiet_iff.1 hq).1]

/-- A quiet edge before the expiry: the engine runs on, one edge nearer. -/
theorem quiet_edge_toExpiry (hr : s.wdt.running = true) (hq : s.pinsNow.quiet = true)
    (h : s.wdt.toExpiry s.params.divDecode ≠ 1) :
    s.afterEdge.wdt.running = true ∧
    s.afterEdge.wdt.toExpiry s.params.divDecode + 1 = s.wdt.toExpiry s.params.divDecode := by
  obtain ⟨hc, hn, hd, hr', -⟩ := quiet_edge hq
  have same : s.afterEdge.wdt.toExpiry s.params.divDecode =
      (s.wdt.timePhase s.params.divDecode).toExpiry s.params.divDecode := by
    simp only [Wdt.toExpiry, Wdt.phase, hc, hn, hd, Wdt.timePhase_control]
  rw [hr', same]
  exact Wdt.timePhase_toExpiry hr h

/-- Quiet edges up to the expiry: the engine runs on under the same CONTROL, each edge one nearer to it (R95). -/
theorem quiet_edges_toExpiry (hr : s.wdt.running = true) (hq : ∀ i ∈ s.inputs, i.quiet = true) {k : Nat}
    (hk : k < s.wdt.toExpiry s.params.divDecode) :
    (s.afterEdges k).wdt.running = true ∧ (s.afterEdges k).wdt.control = s.wdt.control ∧
    (s.afterEdges k).wdt.toExpiry s.params.divDecode + k = s.wdt.toExpiry s.params.divDecode := by
  induction k with
  | zero => exact ⟨hr, rfl, rfl⟩
  | succ k ih =>
    obtain ⟨hrun, hctl, hleft⟩ := ih (by omega)
    have hquiet : (s.afterEdges k).pinsNow.quiet = true := pinsNow_quiet (inputs_afterEdges hq k)
    obtain ⟨hrun', hnear⟩ := quiet_edge_toExpiry hrun hquiet (by rw [afterEdges_params]; omega)
    rw [afterEdges_params] at hnear
    rw [afterEdges_succ']
    exact ⟨hrun', (quiet_edge hquiet).1.trans hctl, by omega⟩

/-- What holds of all listed inputs and of an idle edge holds of the coming edge (log 1). -/
theorem pinsNow_of_forall_inputs {P : PinsIn → Prop} (h : ∀ i ∈ s.inputs, P i) (hidle : P .idle) :
    P s.pinsNow := by
  rcases hs : s.inputs with _ | ⟨i, r⟩
  · rwa [State.pinsNow_nil _ hs]
  · rw [State.pinsNow_cons _ hs]; exact h i (by simp [hs])

/-- Quiet edges without a RELOAD write keep RELOAD. -/
theorem quiet_edges_reload (hq : ∀ i ∈ s.inputs, i.quiet = true)
    (hl : ∀ i ∈ s.inputs, ∀ v, i.operation ≠ .wrReload v) (k : Nat) :
    (s.afterEdges k).wdt.reload = s.wdt.reload := by
  induction k with
  | zero => rfl
  | succ k ih =>
    have hkeep : ∀ v, (s.afterEdges k).pinsNow.operation ≠ .wrReload v :=
      pinsNow_of_forall_inputs (P := fun i => ∀ v, i.operation ≠ .wrReload v) (inputs_afterEdges hl k) nofun
    rw [afterEdges_succ', quiet_edge_reload (pinsNow_quiet (inputs_afterEdges hq k)) hkeep, ih]

/-- Of the quiet edges up to the distance, only the last expires (R95). -/
theorem expiresNow_at_distance (hr : s.wdt.running = true) (hq : ∀ i ∈ s.inputs, i.quiet = true) {k : Nat}
    (hk : k < s.wdt.toExpiry s.params.divDecode) :
    (s.afterEdges k).expiresNow = true ↔ k + 1 = s.wdt.toExpiry s.params.divDecode := by
  obtain ⟨hrun, -, hleft⟩ := quiet_edges_toExpiry hr hq hk
  rw [expiresNow_iff_toExpiry hrun (pinsNow_quiet (inputs_afterEdges hq k)), afterEdges_params]
  omega

/-- What the expiry leaves after quiet edges without a RELOAD write (R97, R98, R100). -/
theorem after_expiry (hr : s.wdt.running = true) (hq : ∀ i ∈ s.inputs, i.quiet = true)
    (hl : ∀ i ∈ s.inputs, ∀ v, i.operation ≠ .wrReload v) {n : Nat}
    (hn : s.wdt.toExpiry s.params.divDecode = n) :
    (s.afterEdges n).wdt.running = irqEn s.wdt.control ∧
    (s.afterEdges n).wdt.count = (if irqEn s.wdt.control then s.wdt.reload else 0) ∧
    (s.afterEdges n).wdt.rstReq = (!irqEn s.wdt.control && rstEn s.wdt.control) := by
  obtain ⟨k, rfl⟩ := Nat.exists_eq_add_of_le' (hn ▸ Wdt.toExpiry_pos : 1 ≤ n)
  have hlt : k < s.wdt.toExpiry s.params.divDecode := by omega
  obtain ⟨-, hctl, -⟩ := quiet_edges_toExpiry hr hq hlt
  obtain ⟨-, -, hrun, hcount, hreq⟩ :=
    quiet_expiry (pinsNow_quiet (inputs_afterEdges hq k)) ((expiresNow_at_distance hr hq hlt).2 hn.symm)
  rw [hctl] at hrun hcount hreq
  rw [quiet_edges_reload hq hl k] at hcount
  rw [afterEdges_succ']
  exact ⟨hrun, hcount, hreq⟩

/-! ## The enabling write (R150) -/

/-- A CONTROL write that sets the enable bit of a stopped, disabled engine loads the count and starts it (R68). -/
theorem enabling_write_edge {c : Word} {rest : List PinsIn} (hen : en s.wdt.control = false)
    (hrun : s.wdt.running = false) (hc : en c = true)
    (hin : s.inputs = .memWrite (RegName.offset .control) c :: rest) :
    s.afterEdge.wdt.control = c ∧ s.afterEdge.wdt.reload = s.wdt.reload ∧ s.afterEdge.wdt.count = s.wdt.reload ∧
    s.afterEdge.wdt.running = true ∧ s.afterEdge.wdt.divcnt = 0 := by
  have hpins := State.pinsNow_cons s hin
  have hop : s.pinsNow.operation = .wrControl c := by rw [hpins]; exact operation_memWrite .control c
  rw [edge_of_not_rst (by rw [hpins]; rfl), hop, Wdt.timePhase_of_stopped hrun]
  rcases Wdt.writeControl_cases s.wdt.clearRstReq c with ⟨-, -, e⟩ | ⟨h, -, -⟩ | ⟨h, -⟩
  · rw [effect, e]; exact ⟨rfl, rfl, rfl, rfl, rfl⟩
  · simp [hen] at h
  · simp [hen, hc] at h

/-- Prescaler 0 and divider code 00 make a period of 16 cycles under both decodes (R51, R78). -/
theorem period_sixteen (d : DivDecode) {c : Word} (hp : prescaler c = 0) (hd : divSel c = 0b00) : period d c = 16 := by
  cases d <;> simp [period, divider, Config.divTable, hp, hd]

/-- Settles O39: the enabling write leaves a distance of 1000 periods of 16 edges, which each quiet edge brings down by
one; the edge at distance 1 expires. -/
theorem enablingWriteExpiresAfter16000Edges : Obligations.EnablingWriteExpiresAfter16000Edges := by
  have hperiod : period .fourWay 0x21 = 16 := period_sixteen _ (by decide) (by decide)
  refine ⟨fun s c rest hen hrun hreload hc hp hd hin hrest => ?_, hperiod, ?_, ?_⟩
  · obtain ⟨hcontrol, hload, hcount, hrun', hdivcnt⟩ := enabling_write_edge hen hrun hc hin
    have hquiet : ∀ i ∈ s.afterEdge.inputs, i.quiet = true := by
      rw [afterEdge_inputs, hin]; exact fun i hi => (hrest i hi).1
    have hkeep : ∀ i ∈ s.afterEdge.inputs, ∀ v, i.operation ≠ .wrReload v := by
      rw [afterEdge_inputs, hin]; exact fun i hi => (hrest i hi).2
    have hdist : s.afterEdge.wdt.toExpiry s.afterEdge.params.divDecode = 16000 := by
      rw [Wdt.toExpiry_of_restarted hdivcnt, hcontrol, period_sixteen _ hp hd, hcount, hreload]
      simp
    refine ⟨fun j h1 hj => ⟨_, run_eq j s, ?_⟩, _, run_eq 16001 s, ?_⟩
    · obtain ⟨k, rfl⟩ := Nat.exists_eq_add_of_le' h1
      rw [afterEdges_succ, expiresNow_at_distance hrun' hquiet (by rw [hdist]; omega), hdist]
    · have hafter := after_expiry hrun' hquiet hkeep hdist
      rw [hcontrol, hload, hreload] at hafter
      rw [afterEdges_succ]
      exact hafter
  · rw [freqExact, hperiod]; norm_num [Config.baseClkHz]
  · norm_num [virtualTime, Config.baseClkHz]

end Sys2Proof.Machine
end

section
/-! PROOFS. Decode and encode agree (30_encoding.md R46 to R48, R53), as pins and as the bytes of log 8; a command the
host places runs at the next edge (log 9). -/

namespace Sys2Proof

/-! ## Decode of encode -/

/-- The round trip of every operation, from its constructor's lemma. -/
theorem roundTrip : ∀ i : Instr, Laws.RoundTrip.Statement i
  | .idle           => Laws.RoundTrip.idle
  | .rdControl      => Laws.RoundTrip.rdControl
  | .rdReload       => Laws.RoundTrip.rdReload
  | .rdCount        => Laws.RoundTrip.rdCount
  | .rdAck          => Laws.RoundTrip.rdAck
  | .rdUnmapped a   => Laws.RoundTrip.rdUnmapped a
  | .wrControl v    => Laws.RoundTrip.wrControl v
  | .wrReload v     => Laws.RoundTrip.wrReload v
  | .wrCount v      => Laws.RoundTrip.wrCount v
  | .wrAck v        => Laws.RoundTrip.wrAck v
  | .wrUnmapped a v => Laws.RoundTrip.wrUnmapped a v
  | .advance        => Laws.RoundTrip.advance
  | .tick           => Laws.RoundTrip.tick
  | .expire         => Laws.RoundTrip.expire
  | .reset          => Laws.RoundTrip.reset

/-- Only the internal operations have no encoding (R56). -/
theorem encode_eq_none_iff (i : Instr) : encode i = none ↔ i.isBus = false := by
  cases i <;> simp [encode, Instr.isBus]

theorem cmd_of_zeroExtend :
    ∀ c : Cmd, (c.zeroExtend 8).extractLsb' 6 2 = 0#2 ∧ (c.zeroExtend 8).extractLsb' 0 6 = c := by decide

/-- The bytes of a command decode as its pins do, and the bytes after them are left (log 8). -/
theorem decodeBytes_cmdBytes (c : Cmd) (v : Word) (rest : List Byte) :
    decodeBytes (cmdBytes c v ++ rest) = .ok (decodeCmd c v, rest) := by
  obtain ⟨high, low⟩ := cmd_of_zeroExtend c
  simp only [cmdBytes, List.cons_append, List.nil_append, decodeBytes, high, low, word_of_bytes, if_true]

/-- Settles O3: the pins of an encoding decode to the operation, and the bytes decode as the pins do. -/
theorem decodeOfEncodeIsTheOperation : Obligations.DecodeOfEncodeIsTheOperation := by
  refine ⟨fun i rest hwf hbus => ?_, fun i hi => ?_⟩
  · obtain ⟨hdec, hnone⟩ := roundTrip i hwf
    cases he : encode i with
    | none => rw [hnone he] at hbus; cases hbus
    | some cv =>
      obtain ⟨c, v⟩ := cv
      have hcv : decodeCmd c v = i := hdec (c, v) he
      exact ⟨c, v, cmdBytes c v, rfl, hcv, by rw [encodeBytes, he, Option.map_some], rfl,
        by rw [decodeBytes_cmdBytes, hcv]⟩
  · have he := (encode_eq_none_iff i).2 hi
    exact ⟨he, by rw [encodeBytes, he, Option.map_none]⟩

/-! ## Encode of decode -/

theorem encode_decodeRead (a : Offset) : encode (decodeRead a) = some (mkCmd true false a, 0#32) := by
  unfold decodeRead
  cases h : regAt a with
  | none => rfl
  | some r => rw [← offset_of_regAt h]; cases r <;> rfl

theorem encode_decodeWrite (a : Offset) (v : Word) : encode (decodeWrite a v) = some (mkCmd true true a, v) := by
  unfold decodeWrite
  cases h : regAt a with
  | none => rfl
  | some r => rw [← offset_of_regAt h]; cases r <;> rfl

theorem decodeRead_wf (a : Offset) : (decodeRead a).wf = true := by
  unfold decodeRead
  cases h : regAt a with
  | none => exact (regAt_eq_none a).1 h
  | some r => cases r <;> rfl

theorem decodeWrite_wf (a : Offset) (v : Word) : (decodeWrite a v).wf = true := by
  unfold decodeWrite
  cases h : regAt a with
  | none => exact (regAt_eq_none a).1 h
  | some r => cases r <;> rfl

/-- Decode by the pins it examines: `sel`, and of a request `we` (R47, R48). -/
theorem decodeCmd_cases (c : Cmd) (v : Word) :
    (cmdSel c = false ∧ decodeCmd c v = .idle) ∨
    (cmdSel c = true ∧ cmdWe c = false ∧ decodeCmd c v = decodeRead (cmdAddr c)) ∨
    (cmdSel c = true ∧ cmdWe c = true ∧ decodeCmd c v = decodeWrite (cmdAddr c) v) := by
  cases hs : cmdSel c <;> cases hw : cmdWe c <;> simp [decodeCmd, hs, hw]

/-- Settles O4: a request's encoding is its own pins packed again, an idle one's is the zero command. -/
theorem encodeOfDecodeKeepsTheExaminedPins : Obligations.EncodeOfDecodeKeepsTheExaminedPins := by
  intro c v
  refine ⟨?_, Machine.decodeCmd_isBus c v, ?_⟩
  · rcases decodeCmd_cases c v with ⟨-, e⟩ | ⟨-, -, e⟩ | ⟨-, -, e⟩ <;> rw [e]
    · rfl
    · exact decodeRead_wf _
    · exact decodeWrite_wf _ _
  · have repack := mkCmd_cmd_fields c
    rcases decodeCmd_cases c v with ⟨hs, e⟩ | ⟨hs, hw, e⟩ | ⟨hs, hw, e⟩ <;> rw [e]
    · have noRequest : c.getLsbD 5 = false := hs
      exact ⟨0#6, 0#32, rfl, noRequest.symm, fun h => absurd (noRequest.symm.trans h) (by decide),
        fun h => absurd (noRequest.symm.trans h) (by decide)⟩
    · have isRead : c.getLsbD 4 = false := hw
      rw [hs, hw] at repack
      exact ⟨c, 0#32, by rw [encode_decodeRead, repack], rfl, fun _ => rfl,
        fun _ h => absurd (isRead.symm.trans h) (by decide)⟩
    · rw [hs, hw] at repack
      exact ⟨c, v, by rw [encode_decodeWrite, repack], rfl, fun _ => rfl, fun _ _ => rfl⟩

/-! ## Pins that are not examined, and the written-out commands -/

/-- Without `sel` nothing else is examined (R48). -/
theorem decodeCmd_of_not_sel {c : Cmd} (h : c.getLsbD 5 = false) (v : Word) : decodeCmd c v = .idle :=
  if_neg (by rw [cmdSel, h]; decide)

/-- Settles O5: the data word is used by `decodeWrite` alone. -/
theorem unexaminedPinsDoNotMatter : Obligations.UnexaminedPinsDoNotMatter := by
  refine ⟨fun c v h => decodeCmd_of_not_sel h v, fun c v w h => ?_⟩
  have hw : cmdWe c = false := h
  simp only [decodeCmd, hw, Bool.false_eq_true, if_false]

/-- Settles O2, by evaluation of the fourteen commands. -/
theorem writtenOutCommandsDecode : Obligations.WrittenOutCommandsDecode := by
  unfold Obligations.WrittenOutCommandsDecode
  decide

/-! ## The command the host places -/

theorem extractLsb'_ofNat_shift (x i k : Nat) (h : i + 8 ≤ 32) (hk : k = 8 + i) :
    (BitVec.ofNat 32 (x >>> 8)).extractLsb' i 8 = BitVec.ofNat 8 (x >>> k) := by
  subst hk
  refine BitVec.eq_of_getLsbD_eq fun j hj => ?_
  have hlt : i + j < 32 := by omega
  simp only [BitVec.getLsbD_extractLsb', BitVec.getLsbD_ofNat, Nat.testBit_shiftRight, hlt, hj, Nat.add_assoc,
    decide_true, Bool.true_and]

/-- The bytes of a number hold the command in bits 5:0 and the data word from bit 8 on (log 8). -/
theorem decode_fiveBytes {x : Nat} {i : Instr} {rest : List Byte} (h : decodeBytes (fiveBytes x) = .ok (i, rest)) :
    i = decodeCmd (BitVec.ofNat 6 x) (BitVec.ofNat 32 (x >>> 8)) := by
  have low : (BitVec.ofNat 8 x).extractLsb' 0 6 = BitVec.ofNat 6 x := by
    refine BitVec.eq_of_getLsbD_eq fun j hj => ?_
    have hlt : j < 8 := by omega
    simp only [BitVec.getLsbD_extractLsb', BitVec.getLsbD_ofNat, Nat.zero_add, hlt, hj, decide_true, Bool.true_and]
  have word := word_of_bytes (BitVec.ofNat 32 (x >>> 8))
  rw [extractLsb'_ofNat_shift x 24 32 (by omega) rfl, extractLsb'_ofNat_shift x 16 24 (by omega) rfl,
    extractLsb'_ofNat_shift x 8 16 (by omega) rfl, extractLsb'_ofNat_shift x 0 8 (by omega) rfl] at word
  simp only [fiveBytes, decodeBytes, low, word] at h
  split at h
  · injection h with h; injection h with h _; exact h.symm
  · cases h

theorem decodeTableWord_eq_some {nbits w : Nat} {i : Instr} (h : decodeTableWord nbits w = some i) :
    i = decodeCmd (BitVec.ofNat 6 (w % 2 ^ nbits)) (BitVec.ofNat 32 ((w % 2 ^ nbits) >>> 8)) := by
  simp only [decodeTableWord] at h
  split at h
  · split at h
    next hb => cases h; exact decode_fiveBytes hb
    next => cases h
  · cases h

namespace Machine

/-- Settles O6: the step decodes the placed pins, which are those the table word's bytes hold. -/
theorem placedCommandRunsAtTheNextEdge : Obligations.PlacedCommandRunsAtTheNextEdge := by
  intro s nbits w i h
  rw [decodeTableWord_eq_some h]
  rfl

end Machine

end Sys2Proof
end

section
/-! PROOFS. The edge and its time phase (45_cycle_step.md R104 to R106, R112), and the invariants of 10_state.md R25. -/

namespace Sys2Proof.Machine

/-! ## The edge -/

/-- Settles O7: the three forms of the pins of an edge. -/
theorem edgeRunsResetOrTheDecodedCommand : Obligations.EdgeRunsResetOrTheDecodedCommand := by
  refine ⟨fun s i rest hin hrst => ?_, fun s i rest hin hrst => ?_, fun s hin => ?_⟩
  · simp [step, State.pinsNow_cons s hin, hrst, State.takeEdge, hin]
  · simp [step, State.pinsNow_cons s hin, hrst, State.takeEdge, State.timePhase, State.onWdt, hin]
  · have idlePins : step s = exec .idle s.takeEdge.timePhase := by rw [step, State.pinsNow_nil s hin]; rfl
    simp [idlePins, State.takeEdge, State.timePhase, State.onWdt, hin]

/-- Settles O8: a run is the iterated edge. -/
theorem noRunEverStops : Obligations.NoRunEverStops :=
  fun s n => ⟨s.afterEdges n, run_eq n s, afterEdges_inputs n s, afterEdges_edge n s, afterEdges_params n s⟩

namespace Wdt

variable {d : DivDecode} {w : Wdt}

/-- A cycle inside the period only counts (R88). -/
theorem timePhase_of_not_due (hr : w.running = true) (hd : w.tickDue d = false) :
    w.timePhase d = { w with divcnt := w.divcnt + 1, rstReq := false } := by
  rcases timePhase_cases d w with ⟨h, -⟩ | ⟨-, -, e⟩ | ⟨-, h, -⟩ | ⟨-, h, -⟩
  · simp [hr] at h
  · exact e
  all_goals simp [hd] at h

/-- A tick with a count above 1 takes one from it (R89). -/
theorem timePhase_of_tick (hr : w.running = true) (hd : w.tickDue d = true) (hc : 2 ≤ w.count.toNat) :
    w.timePhase d = { w with count := w.count - 1, divcnt := 0, rstReq := false } := by
  rw [timePhase_of_due hr hd, tick_of_two_le (by exact hc)]; rfl

/-- A tick with a count of 1 or 0 in interrupt mode: the line is raised and the count reloaded (R97). -/
theorem timePhase_of_interrupt (hr : w.running = true) (hd : w.tickDue d = true) (hc : w.count.toNat ≤ 1)
    (hi : irqEn w.control = true) :
    w.timePhase d = { w with count := w.reload, divcnt := 0, irq := true, running := true, rstReq := false } := by
  rw [timePhase_of_due hr hd, tick_of_le_one (by exact hc), expire_of_irqEn (by exact hi)]; rfl

/-- A tick with a count of 1 or 0 without irq-enable: the engine stops, and in reset mode requests a reset (R98, R99). -/
theorem timePhase_of_stop (hr : w.running = true) (hd : w.tickDue d = true) (hc : w.count.toNat ≤ 1)
    (hi : irqEn w.control = false) :
    w.timePhase d = { w with count := 0, divcnt := 0, running := false, rstReq := rstEn w.control } := by
  rw [timePhase_of_due hr hd, tick_of_le_one (by exact hc)]
  cases hq : rstEn w.control
  · rw [expire_of_noMode (by exact hi) (by exact hq)]; rfl
  · rw [expire_of_rstEn (by exact hi) (by exact hq)]; rfl

end Wdt

/-- Settles O9: one equation of the time phase per branch. -/
theorem timePhaseUnfolds : Obligations.TimePhaseUnfolds := by
  intro d w
  split_ifs with hr hd hc hi hq
  · exact Wdt.timePhase_of_interrupt hr (Wdt.tickDue_iff.2 hd) hc hi
  · rw [Wdt.timePhase_of_stop hr (Wdt.tickDue_iff.2 hd) hc (by simpa using hi), hq]
  · rw [Wdt.timePhase_of_stop hr (Wdt.tickDue_iff.2 hd) hc (by simpa using hi), Bool.eq_false_of_not_eq_true hq]
  · exact Wdt.timePhase_of_tick hr (Wdt.tickDue_iff.2 hd) (by omega)
  · exact Wdt.timePhase_of_not_due hr (Wdt.tickDue_eq_false.2 (by omega))
  · exact Wdt.timePhase_of_stopped (by simpa using hr)

/-- An edge that writes a register does what time does and then the write. -/
theorem write_edge {s : State} {r : RegName} {v : Word} {rest : List PinsIn} (hin : s.inputs = .memWrite r.offset v :: rest) :
    s.afterEdge.wdt = effect s.params (r.writeOp v) (s.wdt.timePhase s.params.divDecode) ∧
    s.afterEdge.inputs = rest := by
  have hpins := State.pinsNow_cons s hin
  refine ⟨?_, by rw [afterEdge_inputs, hin]; rfl⟩
  rw [edge_of_not_rst (by rw [hpins]; rfl), hpins, operation_memWrite]

/-! ## The reads -/

theorem exec_rdControl (s : State) : exec .rdControl s = .next { s with out := ⟨some s.wdt.control, .noError⟩ } := rfl

theorem exec_rdReload (s : State) : exec .rdReload s = .next { s with out := ⟨some s.wdt.reload, .noError⟩ } := rfl

theorem exec_rdCount (s : State) : exec .rdCount s = .next { s with out := ⟨some s.wdt.count, .noError⟩ } := rfl

theorem exec_rdAck (s : State) : exec .rdAck s = .next { s with out := ⟨some 0, .rdAck⟩ } := rfl

theorem exec_rdUnmapped (a : Offset) (s : State) :
    exec (.rdUnmapped a) s = .next { s with out := ⟨some 0, .rdUnmapped⟩ } := rfl

/-! ## The invariants of R25 -/

theorem afterReset_inv (p : Params) (d : DivDecode) : (Wdt.afterReset p).Inv d :=
  ⟨nofun, period_pos d p.resetControl, fun _ => rfl, fun _ => rfl⟩

/-- Every edge keeps R25: reset establishes it, the time phase and then the bus operation keep it. -/
theorem afterEdge_inv {s : State} (h : s.Inv) : s.afterEdge.Inv := by
  unfold State.Inv
  rw [afterEdge_params]
  rcases edge_cases s with ⟨-, -, e, -⟩ | ⟨-, hbus, e, -⟩ <;> rw [e]
  · exact afterReset_inv s.params s.params.divDecode
  · obtain ⟨hinv, hrequest⟩ := timePhase_keeps_inv s.params.divDecode s.wdt h
    exact busEffect_keeps_inv s.params _ _ hbus hinv (by rwa [Wdt.timePhase_control])

/-- Settles O26: the engine is stopped at cycle 0 of its period, and nothing is requested. -/
theorem resetMeetsTheInvariant : Obligations.ResetMeetsTheInvariant := fun p _ => afterReset_inv p p.divDecode

/-- Settles O27. -/
theorem everyEdgeKeepsTheInvariant : Obligations.EveryEdgeKeepsTheInvariant :=
  fun _ _ h ht => step_eq_iff.1 ht ▸ afterEdge_inv h

theorem Reachable.inv {s : State} (h : Reachable s) : s.Inv := by
  induction h with
  | reset p ins _ => exact resetMeetsTheInvariant p ins
  | step s t _ ht ih => exact everyEdgeKeepsTheInvariant s t ih ht

/-- Settles O28: R25 holds after reset and every edge keeps it. -/
theorem reachableStatesMeetTheInvariant : Obligations.ReachableStatesMeetTheInvariant := by
  intro s h
  obtain ⟨henabled, hperiod, hfrozen, hrequest⟩ := h.inv
  exact ⟨henabled, hperiod, hfrozen, hrequest⟩

end Sys2Proof.Machine
end

section
/-! PROOFS. Time over many edges: the countdown up to the expiry (43_countdown_engine.md R95), the repeated expiries of
interrupt mode (R97, R149), the kick (R72), and the closed form of idle time (45_cycle_step.md R110). -/

namespace Sys2Proof.Machine

/-! ## The closed form of the countdown -/

/-- One more cycle carries into the whole periods exactly where the cycle in the period reaches `N`. -/
theorem div_add_mod_add (m n N : Nat) : m / N + (m % N + n) / N = (m + n) / N := by
  rcases Nat.eq_zero_or_pos N with rfl | hN
  · simp
  · conv_rhs => rw [← Nat.div_add_mod m N, Nat.add_assoc, Nat.mul_add_div hN]

namespace Wdt

variable {d : DivDecode} {w : Wdt}

@[simp] theorem countedFrom_control (c : Word) (m : Nat) : (w.countedFrom d c m).control = w.control := rfl
@[simp] theorem countedFrom_reload (c : Word) (m : Nat) : (w.countedFrom d c m).reload = w.reload := rfl
@[simp] theorem countedFrom_running (c : Word) (m : Nat) : (w.countedFrom d c m).running = w.running := rfl
@[simp] theorem countedFrom_irq (c : Word) (m : Nat) : (w.countedFrom d c m).irq = w.irq := rfl
@[simp] theorem countedFrom_rstReq (c : Word) (m : Nat) : (w.countedFrom d c m).rstReq = false := rfl

theorem countedFrom_count (c : Word) (m : Nat) :
    (w.countedFrom d c m).count.toNat = c.toNat - m / period d w.control := by
  simp only [countedFrom, BitVec.toNat_ofNat]
  exact Nat.mod_eq_of_lt (Nat.lt_of_le_of_lt (Nat.sub_le _ _) c.isLt)

theorem countedFrom_divcnt (c : Word) (m : Nat) :
    (w.countedFrom d c m).divcnt.toNat = m % period d w.control := by
  have := Nat.mod_lt m (period_pos d w.control)
  have := period_le d w.control
  simp only [countedFrom, BitVec.toNat_ofNat]
  exact Nat.mod_eq_of_lt (by omega)

theorem countedFrom_phase (c : Word) (m : Nat) : (w.countedFrom d c m).phase d = m % period d w.control := by
  rw [← countedFrom_divcnt]
  exact phase_of_inPeriod (by rw [countedFrom_divcnt]; exact Nat.mod_lt _ (period_pos d w.control))

/-- Counting on from where counting led is counting through. -/
theorem countedFrom_countedFrom (c : Word) (m n : Nat) :
    (w.countedFrom d c m).countedFrom d (w.countedFrom d c m).count ((w.countedFrom d c m).phase d + n) =
      w.countedFrom d c (m + n) := by
  have hcount := countedFrom_count (d := d) (w := w) c m
  have hphase := countedFrom_phase (d := d) (w := w) c m
  generalize hv : w.countedFrom d c m = v at *
  have hcontrol : v.control = w.control := by rw [← hv]; rfl
  simp only [countedFrom, hcount, hphase, hcontrol, Nat.mod_add_mod, Nat.sub_sub, div_add_mod_add]
  rw [← hv]; rfl

/-- While the expiry is not at the coming edge, the time phase counts one cycle on (R95). -/
theorem timePhase_eq_countedFrom (hr : w.running = true) (h : w.toExpiry d ≠ 1) :
    w.timePhase d = w.countedFrom d w.count (w.phase d + 1) := by
  have hN := sixteen_le_period d w.control
  have hlt := w.count.isLt
  cases hd : w.tickDue d with
  | false =>
    have hin := tickDue_eq_false.1 hd
    rw [timePhase_of_not_due hr hd, countedFrom, phase_of_inPeriod (by omega), Nat.div_eq_of_lt hin, Nat.mod_eq_of_lt hin]
    simp [BitVec.ofNat_add]
  | true =>
    have hc : 2 ≤ w.count.toNat := by
      by_contra hc
      exact h (toExpiry_eq_one_iff.2 ⟨hd, by omega⟩)
    have hlast : w.phase d + 1 = period d w.control := by
      have := tickDue_iff.1 hd
      unfold phase; omega
    rw [timePhase_of_tick hr hd hc, countedFrom, hlast, Nat.div_self (by omega), Nat.mod_self, ofNat_pred_eq hc]
    rfl

end Wdt

/-! ## Quiet edges up to the expiry (R95) -/

variable {s : State}

/-- The count and the cycle after quiet edges before the expiry are those of the closed form (R95). -/
theorem quiet_edges_counted (hr : s.wdt.running = true)
    (hp : s.wdt.divcnt.toNat < period s.params.divDecode s.wdt.control) (hq : ∀ i ∈ s.inputs, i.quiet = true) {k : Nat}
    (hk : k < s.wdt.toExpiry s.params.divDecode) :
    (s.afterEdges k).wdt.count.toNat =
      s.wdt.count.toNat - (s.wdt.divcnt.toNat + k) / period s.params.divDecode s.wdt.control ∧
    (s.afterEdges k).wdt.divcnt.toNat = (s.wdt.divcnt.toNat + k) % period s.params.divDecode s.wdt.control := by
  have hN := period_pos s.params.divDecode s.wdt.control
  induction k with
  | zero => simp [Nat.div_eq_of_lt hp, Nat.mod_eq_of_lt hp]
  | succ k ih =>
    obtain ⟨hcount, hdivcnt⟩ := ih (by omega)
    obtain ⟨hrun, hcontrol, hleft⟩ := quiet_edges_toExpiry hr hq (k := k) (by omega)
    obtain ⟨-, qcount, qdivcnt, -, -⟩ := quiet_edge (pinsNow_quiet (inputs_afterEdges hq k))
    have counted := Wdt.timePhase_eq_countedFrom (d := s.params.divDecode) hrun (by omega)
    have hphase : (s.afterEdges k).wdt.phase s.params.divDecode = (s.afterEdges k).wdt.divcnt.toNat :=
      Wdt.phase_of_inPeriod (by rw [hdivcnt, hcontrol]; exact Nat.mod_lt _ hN)
    rw [afterEdges_params, counted] at qcount qdivcnt
    rw [afterEdges_succ', qcount, qdivcnt, Wdt.countedFrom_count, Wdt.countedFrom_divcnt, hphase, hcontrol, hcount,
      hdivcnt, Nat.sub_sub, div_add_mod_add, Nat.mod_add_mod]
    exact ⟨rfl, rfl⟩

/-- Settles O36: the distance falls by one at each quiet edge, and the count and the cycle follow the closed form. -/
theorem expiryComesAfterCountTimesPeriod : Obligations.ExpiryComesAfterCountTimesPeriod := by
  intro s j hr hp hq hj
  have hdist : s.wdt.toExpiry s.params.divDecode =
      max s.wdt.count.toNat 1 * period s.params.divDecode s.wdt.control - s.wdt.divcnt.toNat := by
    rw [Wdt.toExpiry, Wdt.phase_of_inPeriod hp]
  rw [← hdist] at hj ⊢
  obtain ⟨hrun, hcontrol, -⟩ := quiet_edges_toExpiry hr hq hj
  obtain ⟨hcount, hdivcnt⟩ := quiet_edges_counted hr hp hq hj
  exact ⟨s.afterEdges j, run_eq j s, hrun, hcontrol, hcount, hdivcnt, expiresNow_at_distance hr hq hj⟩

/-! ## Interrupt mode: the expiries repeat (R97, R149) -/

/-- The engine as an interrupt-mode expiry leaves it, with no write to CONTROL, COUNT or RELOAD to come. -/
structure State.FreshlyLoaded (s : State) : Prop where
  running   : s.wdt.running = true
  divcnt    : s.wdt.divcnt = 0
  count     : s.wdt.count = s.wdt.reload
  interrupt : irqEn s.wdt.control = true
  quiet     : ∀ i ∈ s.inputs, i.quiet = true
  keeps     : ∀ i ∈ s.inputs, ∀ v, i.operation ≠ .wrReload v

/-- The edges from one expiry of interrupt mode to the next (R149). -/
def State.expiryInterval (s : State) : Nat :=
  max s.wdt.reload.toNat 1 * period s.params.divDecode s.wdt.control

theorem State.FreshlyLoaded.toExpiry (h : s.FreshlyLoaded) :
    s.wdt.toExpiry s.params.divDecode = s.expiryInterval := by
  rw [Wdt.toExpiry_of_restarted h.divcnt, h.count, State.expiryInterval]

/-- One interval after a fresh load the engine is freshly loaded again, with the same interval before it. -/
theorem State.FreshlyLoaded.after_interval (h : s.FreshlyLoaded) :
    (s.afterEdges s.expiryInterval).FreshlyLoaded ∧
    (s.afterEdges s.expiryInterval).expiryInterval = s.expiryInterval := by
  have hpos : 0 < s.expiryInterval := h.toExpiry ▸ Wdt.toExpiry_pos
  obtain ⟨k, hk⟩ := Nat.exists_eq_add_of_le' hpos
  have hlt : k < s.wdt.toExpiry s.params.divDecode := by rw [h.toExpiry]; omega
  obtain ⟨-, hcontrol, -⟩ := quiet_edges_toExpiry h.running h.quiet hlt
  have hexpires := (expiresNow_at_distance h.running h.quiet hlt).2 (by rw [h.toExpiry, hk])
  obtain ⟨xcontrol, xdivcnt, xrunning, xcount, -⟩ := quiet_expiry (pinsNow_quiet (inputs_afterEdges h.quiet k)) hexpires
  rw [← afterEdges_succ', ← hk] at xcontrol xdivcnt xrunning xcount
  rw [hcontrol] at xcontrol xrunning xcount
  rw [h.interrupt] at xrunning xcount
  have hreload := quiet_edges_reload h.quiet h.keeps
  refine ⟨⟨xrunning, xdivcnt, ?_, by rw [xcontrol, h.interrupt], inputs_afterEdges h.quiet _,
    inputs_afterEdges h.keeps _⟩, ?_⟩
  · rw [xcount, if_pos rfl, hreload, hreload]
  · rw [State.expiryInterval, hreload, xcontrol, afterEdges_params, State.expiryInterval]

/-- From a fresh load the engine runs for ever, and expires at the multiples of the interval (R97). -/
theorem State.FreshlyLoaded.expires_iff (h : s.FreshlyLoaded) (j : Nat) :
    (s.afterEdges j).wdt.running = true ∧
    ((s.afterEdges j).expiresNow = true ↔ (j + 1) % s.expiryInterval = 0) := by
  have hpos : 0 < s.expiryInterval := h.toExpiry ▸ Wdt.toExpiry_pos
  induction j using Nat.strong_induction_on generalizing s with
  | _ j ih =>
    rcases Nat.lt_or_ge j s.expiryInterval with hj | hj
    · have hj' : j < s.wdt.toExpiry s.params.divDecode := by rwa [h.toExpiry]
      refine ⟨(quiet_edges_toExpiry h.running h.quiet hj').1, ?_⟩
      rw [expiresNow_at_distance h.running h.quiet hj', h.toExpiry, ← Nat.dvd_iff_mod_eq_zero]
      exact ⟨fun e => e ▸ dvd_rfl, fun hd => le_antisymm hj (Nat.le_of_dvd (by omega) hd)⟩
    · obtain ⟨k, rfl⟩ := Nat.exists_eq_add_of_le' hj
      obtain ⟨hagain, hsame⟩ := h.after_interval
      have := ih k (by omega) hagain (by rwa [hsame])
      rwa [hsame, ← afterEdges_add, ← Nat.add_mod_right (k + 1), Nat.add_right_comm] at this

/-- Settles O37. -/
theorem interruptExpiriesRepeatForEver : Obligations.InterruptExpiriesRepeatForEver := by
  intro s u j hr hd hc hi hin hu
  obtain rfl := run_eq_iff.1 hu
  exact State.FreshlyLoaded.expires_iff ⟨hr, hd, hc, hi, fun i h => (hin i h).1, fun i h => (hin i h).2⟩ j

/-! ## The kick (R72, R149) -/

/-- A COUNT write to a running, enabled engine that does not expire at its edge restarts the period of the written
count. -/
theorem kick_edge {v : Word} {rest : List PinsIn} (hr : s.wdt.running = true) (hen : en s.wdt.control = true)
    (hx : s.expiresNow = false) (hin : s.inputs = .memWrite (RegName.offset .count) v :: rest) :
    s.afterEdge.wdt.running = true ∧ s.afterEdge.wdt.control = s.wdt.control ∧ s.afterEdge.wdt.count = v ∧
    s.afterEdge.wdt.divcnt = 0 := by
  have hrst : s.pinsNow.rst = false := by rw [State.pinsNow_cons s hin]; rfl
  obtain ⟨-, -, -, hrun⟩ := timePhase_fields hrst
  rw [(write_edge hin).1]
  simp [RegName.writeOp, effect, hrun, hr, hx, hen]

/-- Settles O40: the write leaves a distance of `max v 1` whole periods. -/
theorem kickMovesTheExpiry : Obligations.KickMovesTheExpiry := by
  intro s v rest hinv hr hx hin hrest j h1 hj
  obtain ⟨krun, kcontrol, kcount, kdivcnt⟩ := kick_edge hr (hinv.enabled hr) hx hin
  have hquiet : ∀ i ∈ s.afterEdge.inputs, i.quiet = true := by rwa [afterEdge_inputs, hin]
  have hdist : s.afterEdge.wdt.toExpiry s.afterEdge.params.divDecode =
      max v.toNat 1 * period s.params.divDecode s.wdt.control := by
    rw [Wdt.toExpiry_of_restarted kdivcnt, kcount, kcontrol, afterEdge_params]
  obtain ⟨k, rfl⟩ := Nat.exists_eq_add_of_le' h1
  rw [← hdist] at hj ⊢
  refine ⟨s.afterEdges (k + 1), run_eq _ s, ?_⟩
  rw [afterEdges_succ]
  exact ⟨(quiet_edges_toExpiry krun hquiet (by omega)).1, expiresNow_at_distance krun hquiet (by omega)⟩

/-! ## Idle time in one step (R110) -/

namespace Wdt

variable {d : DivDecode} {w : Wdt}

@[simp] theorem idleFor_zero : w.idleFor d 0 = w := rfl

theorem idleFor_of_stopped (hr : w.running = false) {n : Nat} (hn : n ≠ 0) : w.idleFor d n = w.clearRstReq := by
  simp [idleFor, hn, hr]

theorem idleFor_of_lt (hr : w.running = true) {n : Nat} (hn : n ≠ 0) (h : n < w.toExpiry d) :
    w.idleFor d n = w.countedFrom d w.count (w.phase d + n) := by
  simp [idleFor, hn, hr, h]

theorem idleFor_of_interrupt (hr : w.running = true) (hi : irqEn w.control = true) {n : Nat} (h : w.toExpiry d ≤ n) :
    w.idleFor d n = w.setIrq.countedFrom d w.reload
      ((n - w.toExpiry d) % (max w.reload.toNat 1 * period d w.control)) := by
  have hpos := toExpiry_pos (d := d) (w := w)
  have hn : n ≠ 0 := by omega
  simp [idleFor, hn, hr, hi, Nat.not_lt.2 h]

theorem idleFor_of_stop (hr : w.running = true) (hi : irqEn w.control = false) {n : Nat} (h : w.toExpiry d ≤ n) :
    w.idleFor d n = { w with count := 0#32, divcnt := 0#15, running := false
                             rstReq := rstEn w.control && decide (n = w.toExpiry d) } := by
  have hpos := toExpiry_pos (d := d) (w := w)
  have hn : n ≠ 0 := by omega
  simp [idleFor, hn, hr, hi, Nat.not_lt.2 h]

/-- From a fresh load in interrupt mode the closed form counts around the interval between two expiries. -/
theorem idleFor_of_fresh (hr : w.running = true) (hd : w.divcnt = 0) (hc : w.count = w.reload)
    (hi : irqEn w.control = true) (hirq : w.irq = true) (hq : w.rstReq = false) (n : Nat) :
    w.idleFor d n = w.countedFrom d w.reload (n % (max w.reload.toNat 1 * period d w.control)) := by
  have hdist : w.toExpiry d = max w.reload.toNat 1 * period d w.control := by rw [toExpiry_of_restarted hd, hc]
  have hphase : w.phase d = 0 := by simp [phase, hd]
  rcases Nat.eq_zero_or_pos n with rfl | hn
  · rw [idleFor_zero, Nat.zero_mod, countedFrom]
    cases w; simp_all
  · rcases Nat.lt_or_ge n (w.toExpiry d) with hlt | hge
    · rw [idleFor_of_lt hr (by omega) hlt, hphase, hc, Nat.zero_add, Nat.mod_eq_of_lt (by rwa [← hdist])]
    · have hset : w.setIrq = w := by cases w; simp_all [setIrq]
      rw [idleFor_of_interrupt hr hi hge, hset, hdist, ← Nat.mod_eq_sub_mod (by rwa [← hdist])]

theorem idleFor_succ_of_stopped (hr : w.running = false) (n : Nat) :
    w.idleFor d (n + 1) = (w.timePhase d).idleFor d n := by
  rw [idleFor_of_stopped hr (by omega), timePhase_of_stopped hr]
  rcases Nat.eq_zero_or_pos n with rfl | hn
  · rfl
  · rw [idleFor_of_stopped (by exact hr) (by omega)]; rfl

theorem idleFor_succ_before_expiry (hr : w.running = true) (h : w.toExpiry d ≠ 1) (n : Nat) :
    w.idleFor d (n + 1) = (w.timePhase d).idleFor d n := by
  have hpos := toExpiry_pos (d := d) (w := w)
  obtain ⟨hrun, hnear⟩ := timePhase_toExpiry hr h
  rw [timePhase_eq_countedFrom hr h] at hrun hnear ⊢
  rcases Nat.lt_or_ge (n + 1) (w.toExpiry d) with hlt | hge
  · rw [idleFor_of_lt hr (by omega) hlt]
    rcases Nat.eq_zero_or_pos n with rfl | hn
    · rfl
    · rw [idleFor_of_lt hrun (by omega) (by omega), countedFrom_countedFrom, Nat.add_assoc, Nat.add_comm 1 n]
  · have hdist : n + 1 - w.toExpiry d = n - (w.countedFrom d w.count (w.phase d + 1)).toExpiry d := by omega
    cases hi : irqEn w.control
    · have hat : n + 1 = w.toExpiry d ↔ n = (w.countedFrom d w.count (w.phase d + 1)).toExpiry d := by omega
      rw [idleFor_of_stop hr hi hge, idleFor_of_stop hrun hi (by omega)]
      simp only [hat]; rfl
    · rw [idleFor_of_interrupt hr hi hge, idleFor_of_interrupt hrun hi (by omega), hdist]; rfl

theorem idleFor_succ_at_expiry (hr : w.running = true) (h : w.toExpiry d = 1) (n : Nat) :
    w.idleFor d (n + 1) = (w.timePhase d).idleFor d n := by
  obtain ⟨hd, hc⟩ := toExpiry_eq_one_iff.1 h
  cases hi : irqEn w.control
  · rw [idleFor_of_stop hr hi (by omega), timePhase_of_stop hr hd hc hi, h]
    rcases Nat.eq_zero_or_pos n with rfl | hn
    · simp
    · rw [idleFor_of_stopped rfl (by omega), decide_eq_false (by omega), Bool.and_false]; rfl
  · rw [idleFor_of_interrupt hr hi (by omega), timePhase_of_interrupt hr hd hc hi,
      idleFor_of_fresh rfl rfl rfl (by exact hi) rfl rfl, h, Nat.add_sub_cancel]
    rw [countedFrom, countedFrom]; simp [hr]

/-- One more idle edge before the others is its time phase, and then the closed form of the others (R110). -/
theorem idleFor_succ (w : Wdt) (n : Nat) : w.idleFor d (n + 1) = (w.timePhase d).idleFor d n := by
  cases hr : w.running
  · exact idleFor_succ_of_stopped hr n
  · by_cases h : w.toExpiry d = 1
    · exact idleFor_succ_at_expiry hr h n
    · exact idleFor_succ_before_expiry hr h n

end Wdt

/-- An edge that selects IDLE is its time phase. -/
theorem afterEdge_of_idle (h : s.pinsNow.operation = .idle) :
    s.afterEdge = { s with wdt := s.wdt.timePhase s.params.divDecode, out := ⟨none, .noError⟩
                           inputs := s.inputs.tail, edge := s.edge + 1 } := by
  have hrst : s.pinsNow.rst = false := by
    by_contra hrst
    rw [operation_of_rst (by simpa using hrst)] at h; cases h
  rw [operation_of_not_rst hrst] at h
  rw [State.afterEdge, if_neg (by simp [hrst]), h]; rfl

/-- Idle edges lead where the closed form says (R110). -/
theorem afterEdges_eq_idleFor (n : Nat) (h : ∀ k < n, ((s.inputs[k]?).getD .idle).operation = .idle) :
    s.afterEdges n = s.idleFor n := by
  induction n generalizing s with
  | zero => rfl
  | succ n ih =>
    have hnow : s.pinsNow.operation = .idle := by
      rw [← afterEdges_zero s, afterEdges_pinsNow]; exact h 0 (by omega)
    have hlater : ∀ k < n, ((s.afterEdge.inputs[k]?).getD .idle).operation = .idle := by
      intro k hk
      rw [afterEdge_inputs, List.getElem?_tail]
      exact h (k + 1) (by omega)
    rw [afterEdges_succ, ih hlater, afterEdge_of_idle hnow]
    simp [State.idleFor, Wdt.idleFor_succ, Nat.add_assoc, Nat.add_comm 1 n]

/-- Settles O38: the closed form takes one edge off as the step does; inside the period its phase is `divcnt`. -/
theorem idleTimeClosedForm : Obligations.IdleTimeClosedForm := by
  refine ⟨fun s n h => by rw [run_eq, afterEdges_eq_idleFor n h], fun d w hp => ⟨?_, fun n h1 hn hr => ?_⟩⟩
  · rw [Wdt.toExpiry, Wdt.phase_of_inPeriod hp]
  · rw [Wdt.idleFor_of_lt hr (by omega) hn, Wdt.phase_of_inPeriod hp]; rfl

/-- The block stands still after a reset through any number of idle edges. -/
theorem idleFor_afterReset (p : Params) (n : Nat) :
    (Wdt.afterReset p).idleFor p.divDecode n = Wdt.afterReset p := by
  rcases Nat.eq_zero_or_pos n with rfl | hn
  · rfl
  · rw [Wdt.idleFor_of_stopped rfl (by omega)]; rfl

/-- Settles O19, by the closed form of idle time on a stopped engine. -/
theorem readsAfterResetReturnTheDefaults : Obligations.ReadsAfterResetReturnTheDefaults := by
  intro p n
  have hidle : ∀ k < n, (((State.afterReset p (List.replicate n .idle)).inputs[k]?).getD .idle).operation = .idle := by
    intro k hk
    rw [State.afterReset, List.getElem?_replicate_of_lt hk]; rfl
  have hwdt : ((State.afterReset p (List.replicate n .idle)).idleFor n).wdt = Wdt.afterReset p :=
    idleFor_afterReset p n
  refine ⟨_, by rw [run_eq, afterEdges_eq_idleFor n hidle], hwdt, ?_, ?_, ?_, ?_, ?_⟩
  · rw [exec_rdControl, hwdt]; rfl
  · rw [exec_rdReload, hwdt]; rfl
  · rw [exec_rdCount, hwdt]; rfl
  · exact congrArg Wdt.irq hwdt
  · exact congrArg Wdt.rstReq hwdt

end Sys2Proof.Machine
end

section
/-! PROOFS. What has no influence: reads and what the snapshot leaves out (20_memory.md R38, 10_state.md R27), the output
latches and lines (R13, R114), and the undocumented bits of CONTROL (R15, R50). -/

namespace Sys2Proof.Machine

/-! ## Reads and idle edges -/

/-- The pins ask for a read or for nothing. -/
def PinsIn.Passive (i : PinsIn) : Prop := i.operation.isRead = true ∨ i.operation = .idle

/-- Two inputs that are the same, or both ask for nothing but reads. -/
def PinsIn.SameButReads (i j : PinsIn) : Prop := i = j ∨ (i.Passive ∧ j.Passive)

/-- The block's state after an edge, by the operation of its pins. -/
theorem wdt_edge_eq (p : Params) (i : PinsIn) (w : Wdt) :
    w.edge p i = if i.rst then w.resetTo p else effect p i.operation (w.timePhase p.divDecode) := by
  unfold Wdt.edge PinsIn.operation
  split_ifs <;> rfl

/-- A read changes no field of the block (R65). -/
theorem effect_of_isRead {i : Instr} (h : i.isRead = true) (p : Params) (w : Wdt) : effect p i w = w := by
  cases i with
  | rdControl | rdReload | rdCount | rdAck | rdUnmapped _ => rfl
  | _ => cases h

/-- A read or an idle edge leaves the block as time does (R65). -/
theorem edge_of_passive {i : PinsIn} (h : i.Passive) (p : Params) (w : Wdt) : w.edge p i = w.timePhase p.divDecode := by
  have hrst : i.rst = false := by
    by_contra hrst
    have hop : i.operation = .reset := by simp [PinsIn.operation, hrst]
    rcases h with h | h <;> rw [hop] at h <;> cases h
  rw [wdt_edge_eq, hrst, if_neg (by decide)]
  rcases h with h | h
  · exact effect_of_isRead h p _
  · rw [h]; rfl

theorem edge_of_sameButReads {i j : PinsIn} (h : i.SameButReads j) (p : Params) (w : Wdt) :
    w.edge p i = w.edge p j := by
  rcases h with rfl | ⟨hi, hj⟩
  · rfl
  · rw [edge_of_passive hi, edge_of_passive hj]

theorem headD_sameButReads {l l' : List PinsIn} (h : List.Forall₂ PinsIn.SameButReads l l') :
    (l.headD .idle).SameButReads (l'.headD .idle) := by
  cases h with
  | nil => exact .inl rfl
  | cons hij _ => exact hij

theorem tail_sameButReads {l l' : List PinsIn} (h : List.Forall₂ PinsIn.SameButReads l l') :
    List.Forall₂ PinsIn.SameButReads l.tail l'.tail := by
  cases h with
  | nil => exact .nil
  | cons _ hrest => exact hrest

/-- The block's state after a run depends on its own state, the parameters and the inputs alone, and on these only up to
reads. -/
theorem afterEdges_wdt_congr {s s' : State} (hw : s.wdt = s'.wdt) (hp : s.params = s'.params)
    (hin : List.Forall₂ PinsIn.SameButReads s.inputs s'.inputs) (n : Nat) :
    (s.afterEdges n).wdt = (s'.afterEdges n).wdt := by
  induction n generalizing s s' with
  | zero => exact hw
  | succ n ih =>
    rw [afterEdges_succ, afterEdges_succ]
    refine ih ?_ (by rw [afterEdge_params, afterEdge_params, hp]) ?_
    · rw [afterEdge_wdt, afterEdge_wdt, hw, hp]
      exact edge_of_sameButReads (headD_sameButReads hin) _ _
    · rw [afterEdge_inputs, afterEdge_inputs]
      exact tail_sameButReads hin

/-- Settles O45: both runs keep the same block, whose lines the pins show. -/
theorem readsAreInvisibleToTheBlock : Obligations.ReadsAreInvisibleToTheBlock := by
  intro s ins ins' n t t' hin ht ht'
  obtain rfl := run_eq_iff.1 ht
  obtain rfl := run_eq_iff.1 ht'
  have same := afterEdges_wdt_congr (s := s.present ins) (s' := s.present ins') rfl rfl hin n
  exact ⟨same, congrArg Wdt.irq same, congrArg Wdt.rstReq same⟩

/-- Settles O49: the snapshot holds every field of the block. -/
theorem snapshotResumesExactly : Obligations.SnapshotResumesExactly := by
  refine ⟨fun s s' t t' n hp hin ht ht' => ?_, fun _ => rfl⟩
  obtain rfl := run_eq_iff.1 ht
  obtain rfl := run_eq_iff.1 ht'
  refine afterEdges_wdt_congr (s := s'.restore s.save) (s' := s) rfl hp ?_ n
  rw [State.restore, State.onWdt_inputs, hin]
  exact List.forall₂_same.2 fun _ _ => .inl rfl

/-! ## The latches and the lines -/

/-- No bus operation reads the output latches. -/
theorem exec_of_isBus_out {i : Instr} (h : i.isBus = true) (s : State) (o : BusOut) :
    exec i { s with out := o } = exec i s := by
  cases i with
  | advance => cases h
  | tick => cases h
  | expire => cases h
  | _ => rfl

/-- Neither the latches nor `rst_req` are read at an edge: its reply is new, and the pulse ends before time acts. -/
theorem step_of_latches (s : State) (o : BusOut) (b : Bool) :
    step { s with out := o, wdt := { s.wdt with rstReq := b } } = step s := by
  unfold step
  refine if_congr Iff.rfl rfl ?_
  exact exec_of_isBus_out (decodeCmd_isBus _ _) s.takeEdge.timePhase o

/-- Time carries `irq` along without reading it. -/
theorem timePhase_of_irq (d : DivDecode) (w : Wdt) (b : Bool) :
    ∃ c, ({ w with irq := b } : Wdt).timePhase d = { w.timePhase d with irq := c } := by
  rw [timePhaseUnfolds d w, timePhaseUnfolds d { w with irq := b }]
  dsimp only
  split_ifs <;> exact ⟨_, rfl⟩

/-- So does every bus operation. -/
theorem exec_of_irq {i : Instr} (h : i.isBus = true) (s : State) (b : Bool) :
    ∃ c, exec i { s with wdt := { s.wdt with irq := b } } =
      .next { performed i s with wdt := { (performed i s).wdt with irq := c } } := by
  rw [exec_eq]
  cases i with
  | wrControl v =>
    refine ⟨b, ?_⟩
    simp only [performed, effect, Wdt.writeControl]
    cases enableEdge s.wdt.control v <;> rfl
  | wrCount v => exact ⟨b, by simp only [performed, effect, Wdt.writeCount_eq]; rfl⟩
  | wrAck v => exact ⟨false, rfl⟩
  | advance => cases h
  | tick => cases h
  | expire => cases h
  | reset => cases h
  | _ => exact ⟨b, rfl⟩

/-- `irq` is not read at an edge. -/
theorem step_of_irq (s : State) (b : Bool) :
    ∃ c, step { s with wdt := { s.wdt with irq := b } } =
      .next { s.afterEdge with wdt := { s.afterEdge.wdt with irq := c } } := by
  unfold step State.afterEdge
  rcases Bool.eq_false_or_eq_true s.pinsNow.rst with hrst | hrst
  · rw [if_pos (by exact hrst), if_pos hrst]; exact ⟨false, rfl⟩
  · rw [if_neg (by exact ne_true_of_eq_false hrst), if_neg (ne_true_of_eq_false hrst)]
    obtain ⟨c, hc⟩ := timePhase_of_irq s.params.divDecode s.wdt b
    have htime : ({ s with wdt := { s.wdt with irq := b } } : State).takeEdge.timePhase =
        { s.takeEdge.timePhase with wdt := { s.takeEdge.timePhase.wdt with irq := c } } :=
      congrArg (fun w => { s.takeEdge with wdt := w }) hc
    rw [htime]
    exact exec_of_irq (decodeCmd_isBus _ _) _ _

/-- Settles O47. -/
theorem outputsAreReadByNothing : Obligations.OutputsAreReadByNothing := by
  refine ⟨fun s t o b ht => by rw [step_of_latches, ht], fun s t o b b' ht => ?_⟩
  obtain rfl := step_eq_iff.1 ht
  rw [step_of_latches { s with wdt := { s.wdt with irq := b } } o b']
  exact step_of_irq s b

/-! ## The undocumented bits of CONTROL -/

/-- The fields of CONTROL words that agree on the documented bits are the same (R50). -/
theorem fields_of_documented {c c' : Word} (h : c &&& documentedMask = c' &&& documentedMask) :
    prescaler c = prescaler c' ∧ en c = en c' ∧ divSel c = divSel c' ∧ irqEn c = irqEn c' ∧ rstEn c = rstEn c' := by
  have fields := controlFieldsAreShiftsAndMasks.2
  obtain ⟨-, -, -, -, -, -, hp, he, hd, hi, hr⟩ := fields c
  obtain ⟨-, -, -, -, -, -, hp', he', hd', hi', hr'⟩ := fields c'
  rw [← hp, ← he, ← hd, ← hi, ← hr, h]
  exact ⟨hp', he', hd', hi', hr'⟩

theorem period_of_documented {c c' : Word} (h : c &&& documentedMask = c' &&& documentedMask) (d : DivDecode) :
    period d c = period d c' := by
  obtain ⟨hp, -, hd, -, -⟩ := fields_of_documented h
  cases d <;> simp only [period, divider, hp, hd]

/-- Two states of the block that differ in nothing but undocumented CONTROL bits. -/
structure Wdt.SameDocumented (w w' : Wdt) : Prop where
  fields : w' = { w with control := w'.control }
  masked : w.control &&& documentedMask = w'.control &&& documentedMask

theorem Wdt.SameDocumented.refl (w : Wdt) : w.SameDocumented w := ⟨rfl, rfl⟩

theorem Wdt.SameDocumented.timePhase {w w' : Wdt} (h : w.SameDocumented w') (d : DivDecode) :
    (w.timePhase d).SameDocumented (w'.timePhase d) := by
  obtain ⟨hw, hm⟩ := h
  generalize w'.control = c at hw hm
  subst hw
  obtain ⟨-, -, -, hi, hr⟩ := fields_of_documented hm
  refine ⟨?_, by simpa using hm⟩
  rw [Wdt.timePhase_control, timePhaseUnfolds d w, timePhaseUnfolds d { w with control := c }]
  dsimp only
  rw [period_of_documented hm, hi, hr]
  split_ifs <;> rfl

/-- A bus operation keeps the sameness; a CONTROL write even ends the difference. -/
theorem Wdt.SameDocumented.effect {w w' : Wdt} (h : w.SameDocumented w') (p : Params) {i : Instr}
    (hb : i.isBus = true) : (effect p i w).SameDocumented (effect p i w') := by
  obtain ⟨hw, hm⟩ := h
  generalize w'.control = c at hw hm
  subst hw
  obtain ⟨-, hen, -, -, -⟩ := fields_of_documented hm
  cases i with
  | wrControl v =>
    refine ⟨?_, rfl⟩
    simp only [Machine.effect, Wdt.writeControl, enableEdge, hen]
    cases en c <;> cases en v <;> rfl
  | wrCount v => exact ⟨by simp only [Machine.effect, Wdt.writeCount_eq, hen], by simpa [Machine.effect] using hm⟩
  | advance => cases hb
  | tick => cases hb
  | expire => cases hb
  | reset => cases hb
  | _ => exact ⟨rfl, hm⟩

/-- Two machines that differ in nothing but undocumented CONTROL bits and the data of a CONTROL read. -/
structure State.SameDocumented (s s' : State) : Prop where
  wdt    : s.wdt.SameDocumented s'.wdt
  inputs : s'.inputs = s.inputs
  edge   : s'.edge = s.edge
  params : s'.params = s.params
  diag   : s.out.diag = s'.out.diag
  rdata  : s.out.rdata = s'.out.rdata ∨ (s.out.rdata = some s.wdt.control ∧ s'.out.rdata = some s'.wdt.control)

/-- The replies of one bus operation to two such blocks differ at most in the data of a CONTROL read. -/
theorem Wdt.SameDocumented.reply {w w' : Wdt} (h : w.SameDocumented w') (p : Params) {i : Instr}
    (hb : i.isBus = true) (o o' : BusOut) :
    (reply i w o).diag = (reply i w' o').diag ∧
    ((reply i w o).rdata = (reply i w' o').rdata ∨
      ((reply i w o).rdata = some (Machine.effect p i w).control ∧
        (reply i w' o').rdata = some (Machine.effect p i w').control)) := by
  obtain ⟨hw, -⟩ := h
  generalize w'.control = c at hw
  subst hw
  cases i with
  | rdControl => exact ⟨rfl, .inr ⟨rfl, rfl⟩⟩
  | advance => cases hb
  | tick => cases hb
  | expire => cases hb
  | _ => exact ⟨rfl, .inl rfl⟩

theorem State.SameDocumented.afterEdge {s s' : State} (h : s.SameDocumented s') :
    s.afterEdge.SameDocumented s'.afterEdge := by
  obtain ⟨hw, hin, hedge, hp, -, -⟩ := h
  have hpins : s'.pinsNow = s.pinsNow := by rw [State.pinsNow, hin]; rfl
  have hinputs : s'.afterEdge.inputs = s.afterEdge.inputs := by rw [afterEdge_inputs, afterEdge_inputs, hin]
  have hedge' : s'.afterEdge.edge = s.afterEdge.edge := by rw [afterEdge_edge, afterEdge_edge, hedge]
  have hparams : s'.afterEdge.params = s.afterEdge.params := by rw [afterEdge_params, afterEdge_params, hp]
  rcases edge_cases s with ⟨hr, -, e, eo⟩ | ⟨hr, hb, e, eo⟩
  · rcases edge_cases s' with ⟨-, -, e', eo'⟩ | ⟨hr', -⟩
    · have same : s'.afterEdge.wdt = s.afterEdge.wdt := by rw [e, e', hp]; rfl
      exact ⟨same ▸ .refl _, hinputs, hedge', hparams, by rw [eo, eo'], .inl (by rw [eo, eo'])⟩
    · rw [hpins, hr] at hr'; cases hr'
  · rcases edge_cases s' with ⟨hr', -⟩ | ⟨-, -, e', eo'⟩
    · rw [hpins, hr] at hr'; cases hr'
    · rw [hpins, hp] at e' eo'
      have htime := hw.timePhase s.params.divDecode
      obtain ⟨hdiag, hdata⟩ := htime.reply s.params hb s.out s'.out
      rw [← e, ← e', ← eo, ← eo'] at hdata
      exact ⟨by rw [e, e']; exact htime.effect s.params hb, hinputs, hedge', hparams, by rw [eo, eo', hdiag], hdata⟩

theorem State.SameDocumented.afterEdges {s s' : State} (h : s.SameDocumented s') (n : Nat) :
    (s.afterEdges n).SameDocumented (s'.afterEdges n) := by
  induction n with
  | zero => exact h
  | succ n ih => rw [afterEdges_succ', afterEdges_succ']; exact ih.afterEdge

/-- Settles O46: every edge keeps the sameness, as the block reads none but the documented bits. -/
theorem undocumentedControlBitsHaveNoEffect : Obligations.UndocumentedControlBitsHaveNoEffect := by
  refine ⟨fun s s' t t' n hs hm ht ht' => ?_, fun s v => ⟨_, rfl, rfl⟩⟩
  obtain rfl := run_eq_iff.1 ht
  obtain rfl := run_eq_iff.1 ht'
  have start : s.SameDocumented s' :=
    ⟨⟨congrArg State.wdt hs, hm⟩, (congrArg State.inputs hs :), (congrArg State.edge hs :), (congrArg State.params hs :),
      congrArg (fun u => u.out.diag) hs.symm, .inl (congrArg (fun u => u.out.rdata) hs.symm)⟩
  obtain ⟨⟨hw, hm'⟩, hin, hedge, hp, hdiag, hdata⟩ := start.afterEdges n
  refine ⟨?_, hm', hdiag, hdata⟩
  generalize s'.afterEdges n = u' at *
  obtain ⟨w, o, ins, k, p⟩ := u'
  simp only at hw hin hedge hp
  rw [← hw, hin, hedge, hp]

end Sys2Proof.Machine
end

section
/-! PROOFS. What each operation does, row by row: reads and writes of the registers (R66, R75), IDLE (R48), the internal
operations (R88, R89, R96, R131), and the primitives and pure functions under them. -/

namespace Sys2Proof.Machine

/-! ## IDLE and the reads -/

theorem exec_idle (s : State) : exec .idle s = .next { s with out := ⟨none, .noError⟩ } := rfl

/-- Settles O10: without `sel` the command is IDLE, and its edge is the time phase. -/
theorem idleDoesNothingButTimePasses : Obligations.IdleDoesNothingButTimePasses := by
  refine ⟨exec_idle, rfl, fun c v h => decodeCmd_of_not_sel h v, fun s c v rest h hin => ?_⟩
  have hpins := State.pinsNow_cons s hin
  have hop : s.pinsNow.operation = .idle := by
    rw [hpins]; exact decodeCmd_of_not_sel h v
  rw [step_eq, afterEdge_of_idle hop, hin]; rfl

/-- Settles O11: the commands of the table, and the equation of each read. -/
theorem readsReturnTheirTableRowAndChangeNothing : Obligations.ReadsReturnTheirTableRowAndChangeNothing := by
  intro s v
  have unmapped : ∀ a : Offset, a ∈ ([0x1, 0x2, 0x3, 0x5, 0x6, 0x7, 0x9, 0xA, 0xB, 0xD, 0xE, 0xF] : List Offset) →
      decodeRead a = .rdUnmapped a := by decide
  exact ⟨⟨rfl, exec_rdControl s⟩, ⟨rfl, exec_rdReload s⟩, ⟨rfl, exec_rdCount s⟩, ⟨rfl, exec_rdAck s⟩,
    fun a ha => (decodeCmd_mkCmd_read a v).trans (unmapped a ha), fun a => exec_rdUnmapped a s, rfl, rfl, rfl⟩

/-! ## The writes -/

theorem exec_wrControl (v : Word) (s : State) :
    exec (.wrControl v) s = .next { s with wdt := s.wdt.writeControl v, out := ⟨none, .noError⟩ } := rfl

theorem exec_wrReload (v : Word) (s : State) :
    exec (.wrReload v) s = .next { s with wdt := { s.wdt with reload := v }, out := ⟨none, .noError⟩ } := rfl

theorem exec_wrCount (v : Word) (s : State) :
    exec (.wrCount v) s = .next { s with wdt := s.wdt.writeCount v, out := ⟨none, .noError⟩ } := rfl

theorem exec_wrAck (v : Word) (s : State) :
    exec (.wrAck v) s = .next { s with wdt := { s.wdt with irq := false }, out := ⟨none, .noError⟩ } := rfl

theorem exec_wrUnmapped (a : Offset) (v : Word) (s : State) :
    exec (.wrUnmapped a v) s = .next { s with out := ⟨none, .wrUnmapped⟩ } := rfl

/-- An offset with `addr[1:0] ≠ 0b00` is written in vain (R35, R74). -/
theorem decodeWrite_of_unmapped {a : Offset} (h : a.extractLsb' 0 2 ≠ 0) (v : Word) :
    decodeWrite a v = .wrUnmapped a v := by
  have unmapped : ∀ b : Offset, b.extractLsb' 0 2 ≠ 0 → regAt b = none := by decide
  rw [decodeWrite, unmapped a h]

theorem decodeRead_of_unmapped {a : Offset} (h : a.extractLsb' 0 2 ≠ 0) : decodeRead a = .rdUnmapped a := by
  have unmapped : ∀ b : Offset, b.extractLsb' 0 2 ≠ 0 → regAt b = none := by decide
  rw [decodeRead, unmapped a h]

/-- Settles O12: the two rows of R47 for such writes select an unmapped offset. -/
theorem unmappedWritesAreDropped : Obligations.UnmappedWritesAreDropped := by
  refine ⟨exec_wrUnmapped, rfl, fun c v h => ?_, fun a v h => ?_⟩
  · have rows : ∀ c : Cmd, c &&& 0x31 = 0x31 ∨ c &&& 0x33 = 0x32 →
        cmdSel c = true ∧ cmdWe c = true ∧ (cmdAddr c).extractLsb' 0 2 ≠ 0 := by decide
    obtain ⟨hs, hw, ha⟩ := rows c h
    rw [decodeCmd, if_pos hs, if_pos hw, decodeWrite_of_unmapped ha]; rfl
  · exact (decodeCmd_mkCmd_write a v).trans (decodeWrite_of_unmapped h v)

namespace Wdt

variable {w : Wdt} {v : Word}

theorem writeControl_of_rises (h : en w.control = false) (h' : en v = true) :
    w.writeControl v = { w with control := v, count := w.reload, running := true, divcnt := 0 } := by
  rcases writeControl_cases w v with ⟨-, -, e⟩ | ⟨a, -, -⟩ | ⟨a, -⟩
  · exact e
  · simp [h] at a
  · simp [h, h'] at a

theorem writeControl_of_falls (h : en w.control = true) (h' : en v = false) :
    w.writeControl v = { w with control := v, running := false, divcnt := 0 } := by
  rcases writeControl_cases w v with ⟨a, -, -⟩ | ⟨-, -, e⟩ | ⟨a, -⟩
  · simp [h] at a
  · exact e
  · simp [h, h'] at a

theorem writeControl_of_stays (h : en w.control = en v) :
    w.writeControl v = { w with control := v, divcnt := 0 } := by
  rcases writeControl_cases w v with ⟨a, b, -⟩ | ⟨a, b, -⟩ | ⟨-, e⟩
  · simp [a, b] at h
  · simp [a, b] at h
  · exact e

/-- A CONTROL write loads the count exactly where it takes the enable bit from 0 to 1 (R68, R69). -/
theorem writeControl_count (w : Wdt) (v : Word) :
    (w.writeControl v).count = if !en w.control && en v then w.reload else w.count := by
  rcases writeControl_cases w v with ⟨a, b, e⟩ | ⟨a, b, e⟩ | ⟨a, e⟩ <;> rw [e]
  · simp [a, b]
  · simp [a]
  · simp [a]

/-- Where `running` goes at a CONTROL write (R68). -/
theorem writeControl_running (w : Wdt) (v : Word) :
    (w.writeControl v).running = if en w.control = en v then w.running else en v := by
  rcases writeControl_cases w v with ⟨a, b, e⟩ | ⟨a, b, e⟩ | ⟨a, e⟩ <;> rw [e]
  · simp [a, b]
  · simp [a, b]
  · simp [a]

end Wdt

/-- Settles O13: the rows of the table, CONTROL by its three cases and COUNT by the stored enable bit. -/
theorem writesDoTheirTableRow : Obligations.WritesDoTheirTableRow := by
  intro s v
  refine ⟨fun h h' => ?_, fun h h' => ?_, fun h => ?_, exec_wrReload v s, fun h => ?_, fun h => ?_, exec_wrAck v s,
    fun a => exec_wrUnmapped a v s⟩
  · rw [exec_wrControl, Wdt.writeControl_of_rises h h']
  · rw [exec_wrControl, Wdt.writeControl_of_falls h h']
  · rw [exec_wrControl, Wdt.writeControl_of_stays h]
  · rw [exec_wrCount, Wdt.writeCount, if_pos h]; rfl
  · rw [exec_wrCount, Wdt.writeCount, if_neg (by simp [h])]; rfl

theorem performed_write_idem {i : Instr} (h : i.isWrite = true) (s : State) :
    performed i (performed i s) = performed i s := by
  cases i with
  | wrControl v =>
    have again : (s.wdt.writeControl v).writeControl v = s.wdt.writeControl v :=
      Wdt.writeControl_of_stays (w := s.wdt.writeControl v) rfl
    simp only [performed, effect, reply, again]
  | wrCount v => simp only [performed, effect, reply, Wdt.writeCount_eq, Bool.and_assoc, Bool.and_self]
  | wrReload v => rfl
  | wrAck v => rfl
  | wrUnmapped a v => rfl
  | _ => cases h

/-- Settles O14: the second CONTROL write finds its own enable bit, the second COUNT write its own count. -/
theorem writesAreIdempotent : Obligations.WritesAreIdempotent := by
  intro i s t hi ht
  rw [exec_eq] at ht
  cases ht
  rw [exec_eq, performed_write_idem hi]

/-! ## The internal operations -/

/-- Settles O15: ADVANCE by whether the period runs out, TICK by the count. -/
theorem advanceCountsCyclesAndTickCountsDown : Obligations.AdvanceCountsCyclesAndTickCountsDown := by
  refine ⟨fun s h => ?_, fun s h => ⟨?_, _, exec_eq _ s⟩, fun s h => ?_, fun s h => ⟨?_, _, exec_eq _ s⟩⟩
  · have notDue := Wdt.tickDue_eq_false.2 h
    have succ : (s.wdt.divcnt + 1).toNat = s.wdt.divcnt.toNat + 1 := Wdt.divcnt_succ notDue
    refine ⟨?_, succ, ?_⟩
    · rw [exec_eq, performed, effect, Wdt.advance_of_not_due notDue]; rfl
    · have := period_le s.params.divDecode s.wdt.control
      omega
  · rw [exec_eq, exec_eq, performed, effect, Wdt.advance_of_due (Wdt.tickDue_iff.2 h)]; rfl
  · have pred : (s.wdt.count - 1).toNat = s.wdt.count.toNat - 1 :=
      BitVec.toNat_sub_of_le (by simpa [BitVec.le_def] using Nat.le_of_succ_le h)
    exact ⟨by rw [exec_eq, performed, effect, Wdt.tick_of_two_le h]; rfl, pred⟩
  · rw [exec_eq, exec_eq, performed, effect, Wdt.tick_of_le_one h]; rfl

theorem exec_expire (s : State) : exec .expire s = .next { s with wdt := s.wdt.expire } := rfl

/-- Settles O16: the dispatcher by the two mode bits. -/
theorem expireFollowsItsDecisionTable : Obligations.ExpireFollowsItsDecisionTable := by
  refine fun s => ⟨fun h => ?_, fun h h' => ?_, fun h h' => ?_, fun hc hr h => ⟨_, exec_expire s, ?_⟩⟩
  · rw [exec_expire, Wdt.expire_of_irqEn h]; rfl
  · rw [exec_expire, Wdt.expire_of_rstEn h h']; rfl
  · rw [exec_expire, Wdt.expire_of_noMode h h']
  · rcases Wdt.expire_cases s.wdt with ⟨a, -⟩ | ⟨-, -, e⟩ | ⟨-, -, e⟩
    · simp [h] at a
    · rw [e]; exact ⟨hc, hr, rfl⟩
    · rw [e]; exact ⟨hc, hr, rfl⟩

/-- Settles O18: RESET overwrites every field of the block and the latches. -/
theorem resetLeavesTheDefaultsFromAnyState : Obligations.ResetLeavesTheDefaultsFromAnyState := by
  refine ⟨fun s => rfl, fun s i rest hin hrst => ?_, fun s t ht hwf => ?_⟩
  · rw [edgeRunsResetOrTheDecodedCommand.1 s i rest hin hrst]; rfl
  · cases ht
    obtain ⟨hen, hrstEn⟩ := (Bool.and_eq_true _ _).mp hwf
    exact ⟨hen, hrstEn, rfl⟩

/-- Settles O20, by evaluation of the state after reset. -/
theorem resetStateHoldsTheNamedDefaults : Obligations.ResetStateHoldsTheNamedDefaults :=
  ⟨rfl, rfl, rfl, rfl, rfl, rfl, rfl, rfl, rfl⟩

/-! ## The primitives, the pins and the pure functions -/

/-- Settles O21: each primitive is the update it names. -/
theorem enginePrimitivesKeepTheirContract : Obligations.EnginePrimitivesKeepTheirContract :=
  fun _ _ => ⟨rfl, rfl, rfl, rfl, rfl, rfl, rfl, rfl⟩

/-- Settles O48: the pins are read off the state and the latches. -/
theorem pinsAreRegistered : Obligations.PinsAreRegistered :=
  fun s _ => ⟨rfl, rfl, rfl, rfl, fun v h => by rw [State.pins, h, Option.getD_some]⟩

/-- The divider table is 16 shifted by the code (R51). -/
theorem divTable_eq_shift : ∀ q : BitVec 2, Config.divTable q = 16 <<< q.toNat := by decide

/-- Settles O23, by the table's four codes. -/
theorem dividerDecodesByTheParameter : Obligations.DividerDecodesByTheParameter := by
  intro c
  have hdiv : divider .fourWay c = 16 <<< (divSel c).toNat := divTable_eq_shift (divSel c)
  refine ⟨hdiv, rfl, fun h => ?_, fun h => ?_, fun h => ?_, fun h => ?_⟩ <;> rw [hdiv, h] <;> rfl

/-- `FreqHz` is the whole part of the exact frequency (R80). -/
theorem freqHz_eq_floor (d : DivDecode) (c : Word) : freqHz d c = ⌊freqExact d c⌋₊ :=
  (Nat.floor_div_eq_div Config.baseClkHz (period d c)).symm

/-- The exact frequency is whole exactly where the period divides the clock. -/
theorem freqExact_eq_freqHz_iff (d : DivDecode) (c : Word) :
    freqExact d c = (freqHz d c : ℚ) ↔ period d c ∣ 24000000 := by
  have hpos : (period d c : ℚ) ≠ 0 := Nat.cast_ne_zero.2 (period_pos d c).ne'
  rw [freqExact, freqHz, div_eq_iff hpos]
  norm_cast
  exact ⟨fun h => ⟨_, h.trans (Nat.mul_comm _ _)⟩, fun h => (Nat.div_mul_cancel h).symm⟩

/-- The period of the setting with prescaler `p` and divider code `q` (R78). -/
theorem period_of_setting {p q : Nat} (hp : p < 256) (hq : q < 4) :
    period .fourWay (BitVec.ofNat 32 (256 * p + 8 * q)) = (p + 1) * 16 <<< q := by
  have hpre : (prescaler (BitVec.ofNat 32 (256 * p + 8 * q))).toNat = p := by
    simp only [prescaler, BitVec.extractLsb'_toNat, BitVec.toNat_ofNat, Nat.shiftRight_eq_div_pow]
    omega
  have hsel : (divSel (BitVec.ofNat 32 (256 * p + 8 * q))).toNat = q := by
    simp only [divSel, BitVec.extractLsb'_toNat, BitVec.toNat_ofNat, Nat.shiftRight_eq_div_pow]
    omega
  rw [period, hpre, divider, divTable_eq_shift, hsel]

theorem whole_hertz_settings :
    ((List.range 256).flatMap fun p => (List.range 4).filter fun q => (p + 1) * 16 <<< q ∣ 24000000).length = 102 := by
  decide

/-- Settles O25: the bounds of the period, the floor, and a count of the settings by their periods. -/
theorem periodBoundsAndWholeHertz : Obligations.PeriodBoundsAndWholeHertz := by
  refine ⟨fun d c => ?_, ?_⟩
  · have hlo := sixteen_le_period d c
    have hhi := period_le d c
    exact ⟨rfl, hlo, hhi, by omega, by omega, freqHz_eq_floor d c, freqExact_eq_freqHz_iff d c⟩
  · rw [← whole_hertz_settings]
    refine congrArg List.length (List.flatMap_congr fun p hp => List.filter_congr fun q hq => ?_)
    rw [period_of_setting (List.mem_range.1 hp) (List.mem_range.1 hq)]

end Sys2Proof.Machine
end

section
/-! PROOFS. What an edge does to each field of the block: CONTROL and RELOAD (R28), the count (R24), the two lines (R21,
R22), the engine's state machine (R91, R93), the coincidences of time and bus (R109), and that no tick follows an expiry
within fifteen edges (R103). -/

namespace Sys2Proof.Machine

variable {s : State}

/-! ## Field by field -/

/-- Settles O29: time and every other operation carry CONTROL and RELOAD along. -/
theorem controlAndReloadChangeOnlyByTheirWrites : Obligations.ControlAndReloadChangeOnlyByTheirWrites := by
  intro s t ht
  obtain rfl := step_eq_iff.1 ht
  rcases edge_cases s with ⟨-, hop, e, -⟩ | ⟨-, hbus, e, -⟩ <;> rw [e]
  · rw [hop]; exact ⟨rfl, rfl⟩
  · generalize s.pinsNow.operation = i at *
    cases i with
    | advance | tick | expire | reset => cases hbus
    | _ => simp [effect]

/-- Settles O30: the count that time leaves, on which only the two writes act. -/
theorem countMovesOnlyByItsRules : Obligations.CountMovesOnlyByItsRules := by
  intro s t ht
  obtain rfl := step_eq_iff.1 ht
  unfold State.startsNow
  rcases edge_cases s with ⟨-, hop, e, -⟩ | ⟨hrst, hbus, e, -⟩ <;> rw [e]
  · rw [hop]; rfl
  · obtain ⟨htime, -, -, -⟩ := timePhase_fields hrst
    generalize s.pinsNow.operation = i at *
    cases i with
    | advance | tick | expire | reset => cases hbus
    | wrControl v => simp only [effect, Wdt.writeControl_count, htime, Wdt.timePhase_control, Wdt.timePhase_reload]
    | wrCount v => simp [effect]
    | _ => simpa [effect] using htime

/-- Settles O31: time raises the line at an interrupt-mode expiry; ACK and reset lower it. -/
theorem irqRisesAtExpiryFallsAtAckOrReset : Obligations.IrqRisesAtExpiryFallsAtAckOrReset := by
  intro s t ht
  obtain rfl := step_eq_iff.1 ht
  rcases edge_cases s with ⟨hrst, -, e, -⟩ | ⟨hrst, hbus, e, -⟩ <;> rw [e]
  · simp [hrst]
  · obtain ⟨-, htime, -, -⟩ := timePhase_fields hrst
    generalize s.pinsNow.operation = i at *
    cases i with
    | advance | tick | expire | reset => cases hbus
    | _ => simp [effect, htime, hrst]

/-- No bus operation changes `rst_req` (R75). -/
theorem effect_rstReq (p : Params) {i : Instr} (h : i.isBus = true) (w : Wdt) : (effect p i w).rstReq = w.rstReq := by
  cases i with
  | advance | tick | expire | reset => cases h
  | _ => simp [effect]

theorem expiresNow_rst (h : s.expiresNow = true) : s.pinsNow.rst = false := by
  simp only [State.expiresNow, State.ticksNow, Bool.and_eq_true, Bool.not_eq_true'] at h
  exact h.1.1.1

/-- Settles O32: time ends the pulse and starts one at a reset-mode expiry; the bus leaves it. -/
theorem resetRequestFollowsAResetModeExpiryOnly : Obligations.ResetRequestFollowsAResetModeExpiryOnly := by
  intro s t ht
  obtain rfl := step_eq_iff.1 ht
  rcases edge_cases s with ⟨hrst, -, e, -⟩ | ⟨hrst, hbus, e, -⟩ <;> rw [e]
  · refine ⟨nofun, fun ⟨hx, _⟩ => ?_⟩
    rw [expiresNow_rst hx] at hrst; cases hrst
  · obtain ⟨-, -, htime, -⟩ := timePhase_fields hrst
    rw [effect_rstReq _ hbus, htime]
    simp [and_assoc]

/-! ## The engine's state machine -/

/-- Only a CONTROL write that changes the enable bit and a COUNT write touch the engine or its count (R93). -/
theorem effect_running_of_not_toggle (p : Params) {i : Instr} (h : i.isBus = true) (w : Wdt)
    (hc : ∀ v, i = .wrControl v → en w.control = en v) (hn : ∀ v, i ≠ .wrCount v) :
    (effect p i w).running = w.running ∧ (effect p i w).count = w.count := by
  cases i with
  | advance | tick | expire | reset => cases h
  | wrControl v => rw [effect, Wdt.writeControl_of_stays (hc v rfl)]; exact ⟨rfl, rfl⟩
  | wrCount v => exact absurd rfl (hn v)
  | _ => exact ⟨rfl, rfl⟩

/-- A stopped engine is started by nothing but the CONTROL write that sets its enable bit (R93, D22). -/
theorem effect_of_stopped (p : Params) {i : Instr} (h : i.isBus = true) {w : Wdt} (hr : w.running = false)
    (hs : ¬ ∃ v, i = .wrControl v ∧ en w.control = false ∧ en v = true) :
    (effect p i w).running = false ∧ ((∀ v, i ≠ .wrCount v) → (effect p i w).count = w.count) := by
  cases i with
  | advance | tick | expire | reset => cases h
  | wrControl v =>
    rcases Wdt.writeControl_cases w v with ⟨h0, h1, -⟩ | ⟨-, -, e⟩ | ⟨-, e⟩
    · exact absurd ⟨v, rfl, h0, h1⟩ hs
    · rw [effect, e]; exact ⟨rfl, fun _ => rfl⟩
    · rw [effect, e]; exact ⟨hr, fun _ => rfl⟩
  | wrCount v => exact ⟨by simp [effect, hr], fun hn => absurd rfl (hn v)⟩
  | _ => exact ⟨hr, fun _ => rfl⟩

/-- Settles O33: the bus phase of a stopped and of a running engine, and the time phase by what falls due. -/
theorem engineStateMachine : Obligations.EngineStateMachine := by
  refine ⟨fun s i hr hb => ⟨_, exec_eq i s, ?_, fun hs => effect_of_stopped s.params hb hr hs⟩, fun d w hr => ?_,
    fun s i hr hb => ⟨_, exec_eq i s, ?_, ?_, ?_⟩, fun d w hr hd => ⟨fun hc => ?_, fun hc hi => ?_, fun hc hi => ?_⟩, ?_⟩
  · rintro ⟨v, rfl, h0, h1⟩
    simp only [performed, effect, Wdt.writeControl_of_rises h0 h1, and_self]
  · rw [Wdt.timePhase_of_stopped hr]; exact ⟨hr, rfl⟩
  · rintro ⟨v, rfl, h1, h0⟩
    simp only [performed, effect, Wdt.writeControl_of_falls h1 h0, and_self]
  · rintro v rfl
    simp [performed, effect, hr]
  · intro hc hn
    rw [← hr]
    refine effect_running_of_not_toggle s.params hb s.wdt (fun v hv => ?_) hn
    by_contra hne
    exact hc ⟨v, hv, hne⟩
  · rw [Wdt.timePhase_of_tick hr hd hc]; exact ⟨hr, rfl⟩
  · rw [Wdt.timePhase_of_interrupt hr hd hc hi]; exact ⟨rfl, rfl, rfl, rfl⟩
  · rw [Wdt.timePhase_of_stop hr hd hc hi]; exact ⟨rfl, rfl, rfl⟩
  · rintro s t ht
    cases ht; rfl

/-! ## One-shot -/

/-- A stopped engine that no edge starts is left stopped by it, with no line raised (R91, R137). -/
theorem stopped_edge (hr : s.wdt.running = false) (hs : s.startsNow = false) :
    s.afterEdge.wdt.running = false ∧ s.afterEdge.wdt.rstReq = false ∧
    (s.wdt.irq = false → s.afterEdge.wdt.irq = false) := by
  rcases edge_cases s with ⟨-, -, e, -⟩ | ⟨hrst, hbus, e, -⟩
  · rw [e]; exact ⟨rfl, rfl, fun _ => rfl⟩
  · have hstart : ¬ ∃ v, s.pinsNow.operation = .wrControl v ∧ en s.wdt.clearRstReq.control = false ∧ en v = true := by
      rintro ⟨v, hop, h0, h1⟩
      simp only [State.startsNow, hop] at hs
      simp at h0
      simp [h0, h1] at hs
    rw [Wdt.timePhase_of_stopped hr] at e
    have hrun := (effect_of_stopped s.params hbus (w := s.wdt.clearRstReq) hr hstart).1
    refine ⟨by rw [e, hrun], by rw [e, effect_rstReq _ hbus]; rfl, fun hirq => ?_⟩
    by_contra hup
    obtain ⟨-, -, h | ⟨hx, -⟩⟩ := (irqRisesAtExpiryFallsAtAckOrReset s _ (step_eq s)).1 (by simpa using hup)
    · simp [hirq] at h
    · simp [State.expiresNow, State.ticksNow, hr] at hx

/-- Settles O34, edge by edge. -/
theorem stoppedEngineStaysStoppedUntilStarted : Obligations.StoppedEngineStaysStoppedUntilStarted := by
  intro s u n hr hs hu
  obtain rfl := run_eq_iff.1 hu
  have kept : (s.afterEdges n).wdt.running = false ∧ (1 ≤ n → (s.afterEdges n).wdt.rstReq = false) ∧
      (s.wdt.irq = false → (s.afterEdges n).wdt.irq = false) := by
    clear hu
    induction n with
    | zero => exact ⟨hr, nofun, id⟩
    | succ n ih =>
      obtain ⟨ihr, -, ihirq⟩ := ih fun k hk => hs k (by omega)
      obtain ⟨hr', hq', hirq'⟩ := stopped_edge ihr (hs n (by omega) _ (run_eq n s))
      rw [afterEdges_succ']
      exact ⟨hr', fun _ => hq', fun h => hirq' (ihirq h)⟩
  obtain ⟨hr', hq', hirq'⟩ := kept
  exact ⟨hr', by simp [State.expiresNow, State.ticksNow, hr'], hq', hirq'⟩

/-! ## Coincidences (R109) -/

/-- Settles O35: the operation acts on what the tick or the expiry left (D4). -/
theorem coincidencesOfTimeAndBus : Obligations.CoincidencesOfTimeAndBus := by
  intro s t v a ht hrst ha hticks
  obtain rfl := step_eq_iff.1 ht
  simp only [State.ticksNow, Bool.and_eq_true] at hticks
  obtain ⟨⟨-, hr⟩, hd⟩ := hticks
  rcases edge_cases s with ⟨hrst', -⟩ | ⟨-, -, hw, ho⟩
  · rw [hrst] at hrst'; cases hrst'
  rw [← ha] at hw ho
  have tick := Wdt.timePhase_of_tick hr hd
  have interrupt := Wdt.timePhase_of_interrupt hr hd
  have stop := Wdt.timePhase_of_stop hr hd
  refine ⟨fun h hc => ?_, fun h hc hi => ?_, fun h hc hi => ?_, fun h hc => ?_, fun h hc hi hq => ?_,
    fun h hc hi hen => ?_, fun h hc hi => ?_, fun h hen hv hc hi => ?_, fun h hen hv hc hi hq => ?_,
    fun h hen hv hc => ?_, fun h hen hc => ?_, fun h hc hi => ?_⟩ <;> subst h
  · rw [ho, tick hc]; rfl
  · rw [ho, hw, interrupt hc hi]; exact ⟨rfl, rfl⟩
  · rw [ho, stop hc hi]; rfl
  · rw [hw, tick hc]; simp [effect]
  · rw [hw, stop hc hi]; simp [effect, hq]
  · rw [hw, interrupt hc hi]; simp [effect, hen]
  · rw [hw, interrupt hc hi]; exact ⟨rfl, rfl, rfl⟩
  · rw [hw, interrupt hc hi, effect, Wdt.writeControl_of_falls (by exact hen) hv]; exact ⟨rfl, rfl, rfl⟩
  · rw [hw, stop hc hi, effect, Wdt.writeControl_of_falls (by exact hen) hv]; exact ⟨hq, rfl, rfl⟩
  · rw [hw, tick hc, effect, Wdt.writeControl_of_falls (by exact hen) hv]; exact ⟨rfl, rfl⟩
  · rw [hw]
    cases hi : irqEn s.wdt.control
    · rw [stop hc hi]; simp [effect]
    · rw [interrupt hc hi]; simp [effect]
  · rw [hw, interrupt hc hi]; exact ⟨rfl, rfl⟩

/-! ## No tick soon after an expiry -/

/-- A bus operation leaves the cycle of the period or restarts the period. -/
theorem effect_divcnt (p : Params) {i : Instr} (h : i.isBus = true) (w : Wdt) :
    (effect p i w).divcnt = w.divcnt ∨ (effect p i w).divcnt = 0 := by
  cases i with
  | advance | tick | expire | reset => cases h
  | wrControl v => exact .inr rfl
  | wrCount v => exact .inr (w.writeCount_divcnt)
  | _ => exact .inl rfl

/-- A tick restarts the period whatever it does beside (R88, R97). -/
theorem Wdt.timePhase_divcnt_of_due {d : DivDecode} {w : Wdt} (hr : w.running = true) (hd : w.tickDue d = true) :
    (w.timePhase d).divcnt = 0 := by
  rcases Nat.lt_or_ge 1 w.count.toNat with hc | hc
  · rw [timePhase_of_tick hr hd hc]
  · cases hi : irqEn w.control
    · rw [timePhase_of_stop hr hd hc hi]
    · rw [timePhase_of_interrupt hr hd hc hi]

/-- Time takes the cycle of the period at most one further. -/
theorem Wdt.timePhase_divcnt_le (d : DivDecode) (w : Wdt) : (w.timePhase d).divcnt.toNat ≤ w.divcnt.toNat + 1 := by
  cases hr : w.running
  · rw [timePhase_of_stopped hr]; exact Nat.le_succ _
  · cases hd : w.tickDue d
    · rw [timePhase_of_not_due hr hd]; exact (divcnt_succ hd).le
    · rw [timePhase_divcnt_of_due hr hd]; exact Nat.zero_le _

/-- So does an edge. -/
theorem divcnt_edge_le (s : State) : s.afterEdge.wdt.divcnt.toNat ≤ s.wdt.divcnt.toNat + 1 := by
  rcases edge_cases s with ⟨-, -, e, -⟩ | ⟨-, hbus, e, -⟩ <;> rw [e]
  · exact Nat.zero_le _
  · rcases effect_divcnt s.params hbus (s.wdt.timePhase s.params.divDecode) with h | h <;> rw [h]
    · exact Wdt.timePhase_divcnt_le _ _
    · exact Nat.zero_le _

theorem divcnt_edges_le (s : State) (k : Nat) : (s.afterEdges k).wdt.divcnt.toNat ≤ s.wdt.divcnt.toNat + k := by
  induction k with
  | zero => rfl
  | succ k ih => rw [afterEdges_succ']; exact (divcnt_edge_le _).trans (Nat.succ_le_succ ih)

theorem expiry_divcnt (h : s.expiresNow = true) : s.afterEdge.wdt.divcnt = 0 := by
  have hrst := expiresNow_rst h
  simp only [State.expiresNow, State.ticksNow, Bool.and_eq_true] at h
  obtain ⟨⟨⟨-, hr⟩, hd⟩, -⟩ := h
  rw [edge_of_not_rst hrst]
  rcases effect_divcnt s.params (operation_isBus hrst) (s.wdt.timePhase s.params.divDecode) with e | e <;> rw [e]
  exact Wdt.timePhase_divcnt_of_due hr hd

/-- Settles O17: EXPIRE by its three outcomes; and the period, of at least 16 cycles, starts anew at an expiry. -/
theorem expireNeverActsTwiceNorDoesBoth : Obligations.ExpireNeverActsTwiceNorDoesBoth := by
  refine ⟨fun s t ht => ?_, fun s u k hx h1 hk hu => ?_⟩
  · rw [exec_expire] at ht
    cases ht
    refine ⟨Wdt.expire_control, Wdt.expire_reload, ?_⟩
    rcases Wdt.expire_cases s.wdt with ⟨-, e⟩ | ⟨-, -, e⟩ | ⟨-, -, e⟩ <;> simp [e]
  · obtain rfl := run_eq_iff.1 hu
    obtain ⟨j, rfl⟩ := Nat.exists_eq_add_of_le' h1
    have early : (s.afterEdges (j + 1)).wdt.divcnt.toNat ≤ j := by
      have := divcnt_edges_le s.afterEdge j
      rwa [expiry_divcnt hx, BitVec.ofNat_eq_ofNat, BitVec.toNat_ofNat, Nat.zero_mod, Nat.zero_add] at this
    have hN := sixteen_le_period (s.afterEdges (j + 1)).params.divDecode (s.afterEdges (j + 1)).wdt.control
    have notDue : (s.afterEdges (j + 1)).wdt.tickDue (s.afterEdges (j + 1)).params.divDecode = false :=
      Wdt.tickDue_eq_false.2 (by omega)
    rw [State.ticksNow, notDue, Bool.and_false]

end Sys2Proof.Machine
end

section
/-! PROOFS. Writes along a run: a read returns the most recent write (20_memory.md R42), the boot sequence and START
(70_reset_and_hazards.md R136, R137). -/

namespace Sys2Proof.Machine

variable {s : State}

/-! ## Edges along the listed inputs -/

/-- The pins of an edge among the listed ones. -/
theorem afterEdges_pinsNow_of_lt {mid rest : List PinsIn} (hin : s.inputs = mid ++ rest) {j : Nat} (hj : j < mid.length) :
    (s.afterEdges j).pinsNow = mid[j] := by
  rw [afterEdges_pinsNow, hin, List.getElem?_append_left hj, List.getElem?_eq_getElem hj, Option.getD_some]

theorem afterEdges_inputs_of_append {mid rest : List PinsIn} (hin : s.inputs = mid ++ rest) :
    (s.afterEdges mid.length).inputs = rest := by
  rw [afterEdges_inputs, hin, List.drop_left]

/-- A field that the edges with such pins keep is kept through a list of them. -/
theorem field_kept_through {α : Type} {f : Wdt → α} {Keeps : PinsIn → Prop}
    (hkeep : ∀ t : State, Keeps t.pinsNow → f t.afterEdge.wdt = f t.wdt) {mid rest : List PinsIn}
    (hin : s.inputs = mid ++ rest) (hmid : ∀ i ∈ mid, Keeps i) {j : Nat} (hj : j ≤ mid.length) :
    f (s.afterEdges j).wdt = f s.wdt := by
  induction j with
  | zero => rfl
  | succ j ih =>
    rw [afterEdges_succ', hkeep _ ?_, ih (by omega)]
    rw [afterEdges_pinsNow_of_lt hin hj]
    exact hmid _ (List.getElem_mem hj)

/-! ## A read returns the most recent write -/

/-- What a write leaves in a field, edges keep and a read returns comes back after any such edges. -/
theorem read_returns_write {f : Wdt → Word} {Keeps : PinsIn → Prop} {w r : PinsIn} {v : Word}
    (hwrite : ∀ t : State, t.pinsNow = w → f t.afterEdge.wdt = v)
    (hkeep : ∀ t : State, Keeps t.pinsNow → f t.afterEdge.wdt = f t.wdt)
    (hread : ∀ t : State, t.pinsNow = r → t.afterEdge.out = ⟨some (f t.wdt), .noError⟩) {mid rest : List PinsIn}
    (hin : s.inputs = w :: mid ++ r :: rest) (hmid : ∀ i ∈ mid, Keeps i) :
    ∃ t, run (mid.length + 2) s = .next t ∧ t.out = ⟨some v, .noError⟩ := by
  have hin' : s.afterEdge.inputs = mid ++ r :: rest := by rw [afterEdge_inputs, hin]; rfl
  have hpins : (s.afterEdge.afterEdges mid.length).pinsNow = r :=
    State.pinsNow_cons _ (afterEdges_inputs_of_append hin')
  refine ⟨_, run_eq _ s, ?_⟩
  rw [afterEdges_succ, afterEdges_succ', hread _ hpins, field_kept_through hkeep hin' hmid le_rfl,
    hwrite s (State.pinsNow_cons s hin)]

theorem reload_kept (t : State) (h : t.pinsNow.operation ≠ .reset ∧ ∀ w, t.pinsNow.operation ≠ .wrReload w) :
    t.afterEdge.wdt.reload = t.wdt.reload := by
  obtain ⟨hreset, hwrite⟩ := h
  rw [(controlAndReloadChangeOnlyByTheirWrites t _ (step_eq t)).2]
  split
  next e => exact absurd e hreset
  next e => exact absurd e (hwrite _)
  next => rfl

theorem control_kept (t : State) (h : t.pinsNow.operation ≠ .reset ∧ ∀ w, t.pinsNow.operation ≠ .wrControl w) :
    t.afterEdge.wdt.control = t.wdt.control := by
  obtain ⟨hreset, hwrite⟩ := h
  rw [(controlAndReloadChangeOnlyByTheirWrites t _ (step_eq t)).1]
  split
  next e => exact absurd e hreset
  next e => exact absurd e (hwrite _)
  next => rfl

/-- An edge that reads a register replies with what time left (R105). -/
theorem read_edge {t : State} {r : RegName} (h : t.pinsNow = .memRead r.offset) :
    t.afterEdge.out = reply r.readOp (t.wdt.timePhase t.params.divDecode) t.out := by
  rw [afterEdge_out, h, if_neg (by exact Bool.false_ne_true), ← operation_memRead]
  rfl

/-- Settles O44: the register keeps the word up to the read. -/
theorem readsReturnTheMostRecentWrite : Obligations.ReadsReturnTheMostRecentWrite := by
  refine ⟨fun s v mid rest hin hmid => ?_, fun s v mid rest hin hmid => ?_⟩
  · refine read_returns_write (f := Wdt.reload) (fun t ht => ?_) reload_kept (fun t ht => ?_) hin hmid
    · rw [(controlAndReloadChangeOnlyByTheirWrites t _ (step_eq t)).2, ht, operation_memWrite]; rfl
    · rw [read_edge (r := .reload) ht, RegName.readOp, reply, Wdt.timePhase_reload]
  · refine read_returns_write (f := Wdt.control) (fun t ht => ?_) control_kept (fun t ht => ?_) hin hmid
    · rw [(controlAndReloadChangeOnlyByTheirWrites t _ (step_eq t)).1, ht, operation_memWrite]; rfl
    · rw [read_edge (r := .control) ht, RegName.readOp, reply, Wdt.timePhase_control]

/-! ## Starting the engine -/

/-- A CONTROL write with enable clear to a stopped engine stores the word (R68). -/
theorem Wdt.writeControl_of_stopped {w : Wdt} {v : Word} (hr : w.running = false) (hv : en v = false) :
    w.writeControl v = { w with control := v, running := false, divcnt := 0 } := by
  cases h : en w.control
  · rw [writeControl_of_stays (by rw [h, hv]), hr]
  · exact writeControl_of_falls h hv

/-- Settles O42: the third write finds the enable bit clear, and sets it. -/
theorem bootSequenceStartsTheEngine : Obligations.BootSequenceStartsTheEngine := by
  intro p l c c' rest hc hc'
  generalize hs : State.afterReset p (.memWrite (RegName.offset .reload) l ::
    .memWrite (RegName.offset .control) c :: .memWrite (RegName.offset .control) c' :: rest) = s
  have hp : s.params = p := by rw [← hs]; rfl
  obtain ⟨w1, i1⟩ := write_edge (s := s) (r := .reload) (v := l) (by rw [← hs]; rfl)
  obtain ⟨w2, i2⟩ := write_edge i1
  obtain ⟨w3, i3⟩ := write_edge i2
  have loaded : s.afterEdge.wdt = { Wdt.afterReset p with reload := l } := by
    rw [w1, ← hs]; rfl
  have disabled : s.afterEdge.afterEdge.wdt = { Wdt.afterReset p with reload := l, control := c } := by
    rw [w2, loaded, Wdt.timePhase_of_stopped rfl, RegName.writeOp, effect, Wdt.writeControl_of_stopped rfl hc]; rfl
  have started : s.afterEdge.afterEdge.afterEdge.wdt =
      { control := c', reload := l, count := l, running := true, divcnt := 0, irq := false, rstReq := false } := by
    rw [w3, disabled, Wdt.timePhase_of_stopped rfl, RegName.writeOp, effect, Wdt.writeControl_of_rises (by exact hc) hc']
    rfl
  exact ⟨⟨_, run_eq 2 s, congrArg Wdt.running disabled⟩, _, run_eq 3 s, started, i3⟩

theorem en_of_cleared (c : Word) : en (c &&& 0xFFFFFFDF#32) = false := by
  rw [en, BitVec.getLsbD_and]; exact Bool.and_false _

theorem en_of_set (c : Word) : en (c ||| 0x20#32) = true := by
  rw [en, BitVec.getLsbD_or]; exact Bool.or_true _

/-- Settles O43: the first write of START clears the enable bit, so that the second takes it from 0 to 1. -/
theorem startPseudoOperationStarts : Obligations.StartPseudoOperationStarts := by
  refine ⟨fun s c rest hin => ?_, fun s t v rest hen hr hin ht => ?_⟩
  · obtain ⟨w1, i1⟩ := write_edge (r := .control) (v := c &&& 0xFFFFFFDF#32) hin
    obtain ⟨w2, i2⟩ := write_edge (r := .control) (v := c ||| 0x20#32) i1
    have cleared : en (s.afterEdge.wdt.timePhase s.afterEdge.params.divDecode).control = false := by
      rw [Wdt.timePhase_control, w1]; exact en_of_cleared c
    have kept : s.afterEdge.wdt.reload = s.wdt.reload := by
      rw [w1]; exact Wdt.writeControl_reload.trans Wdt.timePhase_reload
    rw [RegName.writeOp, effect, Wdt.writeControl_of_rises cleared (en_of_set c)] at w2
    refine ⟨_, run_eq 2 s, congrArg Wdt.running w2, (congrArg Wdt.count w2).trans ?_, congrArg Wdt.divcnt w2,
      congrArg Wdt.control w2, i2⟩
    rw [← kept]; exact Wdt.timePhase_reload
  · obtain rfl := step_eq_iff.1 ht
    obtain ⟨w1, -⟩ := write_edge hin
    rw [w1, Wdt.timePhase_of_stopped hr, RegName.writeOp, effect, Wdt.writeControl_running, Wdt.writeControl_count]
    simp [hen, hr]

end Sys2Proof.Machine
end

section
/-! PROOFS. The starved tick (70_reset_and_hazards.md R138): CONTROL and COUNT writes that restart the period before it
runs out. -/

namespace Sys2Proof.Machine

variable {s : State}

/-! ## One edge -/

/-- A quiet edge inside the period keeps all but the cycle. -/
theorem quiet_edge_not_due (hq : s.pinsNow.quiet = true) (hr : s.wdt.running = true)
    (hd : s.wdt.tickDue s.params.divDecode = false) :
    s.afterEdge.wdt.running = true ∧ s.afterEdge.wdt.count = s.wdt.count := by
  obtain ⟨-, hcount, -, hrun, -⟩ := quiet_edge hq
  rw [hrun, hcount, Wdt.timePhase_of_not_due hr hd]
  exact ⟨hr, rfl⟩

/-- What the write of a round does to the engine at an edge that does not tick. -/
theorem restart_edge {w : Restart} (hpins : s.pinsNow = w.pins) :
    s.afterEdge.wdt.control = w.controlAfter s.wdt.control ∧ s.afterEdge.wdt.divcnt = 0 ∧
    (s.wdt.running = true → s.wdt.tickDue s.params.divDecode = false → en s.wdt.control = true →
      en (w.controlAfter s.wdt.control) = en s.wdt.control →
      s.afterEdge.wdt.running = true ∧ s.afterEdge.wdt.count = w.countAfter s.wdt.count) := by
  cases w with
  | control v =>
    rw [edge_of_not_rst (by rw [hpins]; rfl), hpins, Restart.control_operation, effect]
    refine ⟨rfl, rfl, fun hr hd _ hkeep => ?_⟩
    have stays : en (s.wdt.timePhase s.params.divDecode).control = en v := by
      rw [Wdt.timePhase_control]; exact hkeep.symm
    rw [Wdt.writeControl_of_stays stays, Wdt.timePhase_of_not_due hr hd]
    exact ⟨hr, rfl⟩
  | count v =>
    rw [edge_of_not_rst (by rw [hpins]; rfl), hpins, Restart.count_operation, effect]
    refine ⟨by simp, by simp, fun hr hd hen _ => ?_⟩
    rw [Wdt.timePhase_of_not_due hr hd, Wdt.writeCount_running, Wdt.writeCount_count]
    exact ⟨by simp [hr, hen], rfl⟩

/-! ## One round -/

section Round

variable {r : Round} {rest : List PinsIn} (hin : s.inputs = r.edges ++ rest) (hq : ∀ i ∈ r.before, i.quiet = true)
  (htime : s.wdt.divcnt.toNat + r.before.length + 1 < period s.params.divDecode s.wdt.control)
include hin

theorem round_inputs : s.inputs = r.before ++ r.write.pins :: rest := by
  rw [hin, Round.edges, List.append_assoc]; rfl

include hq

theorem control_in_round {j : Nat} (hj : j ≤ r.before.length) : (s.afterEdges j).wdt.control = s.wdt.control :=
  field_kept_through (f := Wdt.control) (fun _ h => (quiet_edge h).1) (round_inputs hin) hq hj

include htime

/-- Up to the write of the round the period in force has not run out. -/
theorem not_due_in_round {j : Nat} (hj : j ≤ r.before.length) :
    (s.afterEdges j).wdt.tickDue (s.afterEdges j).params.divDecode = false := by
  rw [Wdt.tickDue_eq_false, control_in_round hin hq hj, afterEdges_params]
  have := divcnt_edges_le s j
  omega

theorem engine_in_round (hr : s.wdt.running = true) {j : Nat} (hj : j ≤ r.before.length) :
    (s.afterEdges j).wdt.running = true ∧ (s.afterEdges j).wdt.count = s.wdt.count := by
  induction j with
  | zero => exact ⟨hr, rfl⟩
  | succ j ih =>
    obtain ⟨hrun, hcount⟩ := ih (by omega)
    have hquiet : (s.afterEdges j).pinsNow.quiet = true := by
      rw [afterEdges_pinsNow_of_lt (round_inputs hin) hj]
      exact hq _ (List.getElem_mem hj)
    obtain ⟨hrun', hcount'⟩ := quiet_edge_not_due hquiet hrun (not_due_in_round hin hq htime (by omega))
    rw [afterEdges_succ']
    exact ⟨hrun', hcount'.trans hcount⟩

/-- What a round in time leaves: its write, at the start of a period. -/
theorem after_round :
    (s.afterEdges r.edges.length).wdt.control = r.write.controlAfter s.wdt.control ∧
    (s.afterEdges r.edges.length).wdt.divcnt = 0 ∧ (s.afterEdges r.edges.length).inputs = rest ∧
    (s.wdt.running = true → en s.wdt.control = true → en (r.write.controlAfter s.wdt.control) = en s.wdt.control →
      (s.afterEdges r.edges.length).wdt.running = true ∧
      (s.afterEdges r.edges.length).wdt.count = r.write.countAfter s.wdt.count) := by
  have hrest := afterEdges_inputs_of_append hin
  have hpins : (s.afterEdges r.before.length).pinsNow = r.write.pins :=
    State.pinsNow_cons _ (afterEdges_inputs_of_append (round_inputs hin))
  obtain ⟨hcontrol, hdivcnt, hengine⟩ := restart_edge hpins
  have hctl := control_in_round hin hq le_rfl
  rw [hctl] at hcontrol hengine
  rw [Round.length_edges] at hrest ⊢
  rw [afterEdges_succ'] at hrest ⊢
  refine ⟨hcontrol, hdivcnt, hrest, fun hr hen hkeep => ?_⟩
  obtain ⟨hrun, hcount⟩ := engine_in_round hin hq htime hr le_rfl
  rw [← hcount]
  exact hengine hrun (not_due_in_round hin hq htime le_rfl) hen hkeep

end Round

/-! ## Many rounds -/

/-- No edge of rounds in time ticks, whether the engine runs or not (R138). -/
theorem rounds_never_tick {rounds : List Round} {rest : List PinsIn}
    (hrounds : roundsInTime s.params.divDecode s.wdt.control s.wdt.divcnt.toNat rounds)
    (hin : s.inputs = rounds.flatMap Round.edges ++ rest) {j : Nat} (hj : j < (rounds.flatMap Round.edges).length) :
    (s.afterEdges j).ticksNow = false := by
  induction rounds generalizing s j with
  | nil => cases hj
  | cons r rs ih =>
    obtain ⟨hq, htime, -, hlater⟩ := hrounds
    rw [List.flatMap_cons, List.append_assoc] at hin
    rw [List.flatMap_cons, List.length_append] at hj
    rcases Nat.lt_or_ge j r.edges.length with hlt | hge
    · rw [Round.length_edges] at hlt
      rw [State.ticksNow, not_due_in_round hin hq htime (by omega), Bool.and_false]
    · obtain ⟨k, rfl⟩ := Nat.exists_eq_add_of_le' hge
      obtain ⟨hcontrol, hdivcnt, hinputs, -⟩ := after_round hin hq htime
      rw [afterEdges_add]
      refine ih ?_ hinputs (by omega)
      rw [hcontrol, hdivcnt, afterEdges_params]
      exact hlater

/-- Rounds in time leave an enabled engine running, with the words last written (R138). -/
theorem after_rounds {rounds : List Round} {rest : List PinsIn} (hr : s.wdt.running = true)
    (hen : en s.wdt.control = true)
    (hrounds : roundsInTime s.params.divDecode s.wdt.control s.wdt.divcnt.toNat rounds)
    (hin : s.inputs = rounds.flatMap Round.edges ++ rest) :
    (s.afterEdges (rounds.flatMap Round.edges).length).wdt.running = true ∧
    (rounds ≠ [] ∨ s.wdt.divcnt = 0 → (s.afterEdges (rounds.flatMap Round.edges).length).wdt.divcnt = 0) ∧
    (s.afterEdges (rounds.flatMap Round.edges).length).inputs = rest ∧
    (s.afterEdges (rounds.flatMap Round.edges).length).wdt.control =
      rounds.foldl (fun c r => r.write.controlAfter c) s.wdt.control ∧
    (s.afterEdges (rounds.flatMap Round.edges).length).wdt.count =
      rounds.foldl (fun n r => r.write.countAfter n) s.wdt.count := by
  induction rounds generalizing s with
  | nil => exact ⟨hr, fun h => h.resolve_left (absurd rfl), hin, rfl, rfl⟩
  | cons r rs ih =>
    obtain ⟨hq, htime, hkeep, hlater⟩ := hrounds
    rw [List.flatMap_cons, List.append_assoc] at hin
    obtain ⟨hcontrol, hdivcnt, hinputs, hengine⟩ := after_round hin hq htime
    obtain ⟨hrun, hcount⟩ := hengine hr hen hkeep
    have hlater' : roundsInTime (s.afterEdges r.edges.length).params.divDecode
        (s.afterEdges r.edges.length).wdt.control (s.afterEdges r.edges.length).wdt.divcnt.toNat rs := by
      rw [hcontrol, hdivcnt, afterEdges_params]; exact hlater
    obtain ⟨urun, udivcnt, uinputs, ucontrol, ucount⟩ := ih hrun (by rw [hcontrol, hkeep, hen]) hlater' hinputs
    rw [List.flatMap_cons, List.length_append, Nat.add_comm, afterEdges_add, List.foldl_cons, List.foldl_cons,
      ← hcontrol, ← hcount]
    exact ⟨urun, fun _ => udivcnt (.inr hdivcnt), uinputs, ucontrol, ucount⟩

/-- Settles O41, round by round: each write comes before the period in force runs out, and restarts it. -/
theorem controlRewritesStarveTheTick : Obligations.ControlRewritesStarveTheTick := by
  intro s rounds rest hr hrounds hin
  refine ⟨fun j u hj hu => ?_, fun hen hne => ⟨_, run_eq _ s, ?_⟩⟩
  · obtain rfl := run_eq_iff.1 hu
    exact rounds_never_tick hrounds hin hj
  · obtain ⟨hrun, hdivcnt, hinputs, hcontrol, hcount⟩ := after_rounds hr hen hrounds hin
    exact ⟨hrun, hdivcnt (.inl hne), hinputs, hcontrol, hcount⟩

end Sys2Proof.Machine
end

section
/-! PROOFS. What the lines of a trace present (30_encoding.md R54, R55), and the result of a run (45_cycle_step.md
R112). -/

namespace Sys2Proof.Machine

variable {s : State}

/-! ## The lines of a trace -/

theorem operation_memWrite_unmapped {a : Offset} (h : a.extractLsb' 0 2 ≠ 0) (v : Word) :
    (PinsIn.memWrite a v).operation = .wrUnmapped a v :=
  (decodeCmd_mkCmd_write a v).trans (decodeWrite_of_unmapped h v)

theorem operation_memRead_unmapped {a : Offset} (h : a.extractLsb' 0 2 ≠ 0) :
    (PinsIn.memRead a).operation = .rdUnmapped a :=
  (decodeCmd_mkCmd_read a 0#32).trans (decodeRead_of_unmapped h)

/-- A read line is met exactly if the reply of its edge has the data and the diagnostic it names (R54). -/
theorem traceMeets_rd (s : State) (r : TraceReg) (v : Option Word) (d : Option (BitVec 2)) :
    traceMeets [.rd r v d] s = true ↔
      (∀ x, v = some x → (s.present (TraceLine.edges (.rd r v d))).afterEdge.out.rdata = some x) ∧
      (∀ x, d = some x → (s.present (TraceLine.edges (.rd r v d))).afterEdge.out.diag.code = x) := by
  have oneEdge : run (TraceLine.edges (.rd r v d)).length (s.present (TraceLine.edges (.rd r v d))) =
      .next (s.present (TraceLine.edges (.rd r v d))).afterEdge := run_eq 1 _
  simp only [traceMeets, oneEdge, TraceLine.expects, Bool.and_true, Bool.and_eq_true, Option.all_eq_true,
    decide_eq_true_eq]

/-- Settles O50: each line by the operation its pins select. -/
theorem traceLinesPresentTheirOperations : Obligations.TraceLinesPresentTheirOperations := by
  refine ⟨rfl, fun r v => ?_, fun r v d => ?_, fun n => List.map_replicate, fun a v h => ⟨?_, fun x d => ?_⟩,
    fun r v x d => ⟨rfl, rfl⟩, fun c v => ⟨?_, ?_, ?_, ?_, rfl⟩, fun s t r v d ht => ?_⟩
  · exact (congrArg (fun i => [i]) (operation_memWrite r v)).trans (by cases r <;> rfl)
  · exact (congrArg (fun i => [i]) (operation_memRead r)).trans (by cases r <;> rfl)
  · exact congrArg (fun i => [i]) (operation_memWrite_unmapped h v)
  · exact congrArg (fun i => [i]) (operation_memRead_unmapped h)
  · exact congrArg₂ (fun i j => [i, j]) (operation_memWrite .control _) (operation_memWrite .control _)
  · exact congrArg (fun i => [i]) (operation_memWrite .control _)
  · exact congrArg (fun i => [i]) (operation_memWrite .count v)
  · exact congrArg (fun i => [i]) (operation_memWrite .ack 0#32)
  · obtain rfl := step_eq_iff.1 ht
    exact traceMeets_rd s r v d

/-! ## The result of a run -/

/-- The numbers of the next `n` edges after which a pin is 1. -/
def edgesWith (pin : State → Bool) : Nat → State → List Nat
  | 0, _ => []
  | n + 1, s =>
    if pin s.afterEdge then s.afterEdge.edge :: edgesWith pin n s.afterEdge else edgesWith pin n s.afterEdge

theorem mem_edgesWith {pin : State → Bool} {n k : Nat} :
    k ∈ edgesWith pin n s ↔ ∃ j < n, k = s.edge + (j + 1) ∧ pin (s.afterEdges (j + 1)) = true := by
  induction n generalizing s with
  | zero => simp [edgesWith]
  | succ n ih =>
    have first : k ∈ edgesWith pin (n + 1) s ↔
        (k = s.edge + 1 ∧ pin s.afterEdge = true) ∨ k ∈ edgesWith pin n s.afterEdge := by
      rw [edgesWith]
      split_ifs with h <;> simp [h]
    rw [first, ih, Nat.exists_lt_succ_left]
    simp only [afterEdges_succ, afterEdge_edge, afterEdges_zero, Nat.add_assoc, Nat.add_comm 1]

/-- The result of a run, edge by edge. -/
theorem observe_succ (n : Nat) (s : State) :
    observe (n + 1) s =
      { final := (observe n s.afterEdge).final
        outs := s.afterEdge.out :: (observe n s.afterEdge).outs
        irqEdges := if s.afterEdge.wdt.irq then s.afterEdge.edge :: (observe n s.afterEdge).irqEdges
          else (observe n s.afterEdge).irqEdges
        rstReqEdges := if s.afterEdge.wdt.rstReq then s.afterEdge.edge :: (observe n s.afterEdge).rstReqEdges
          else (observe n s.afterEdge).rstReqEdges } := by
  rw [observe, step_eq]

theorem observe_final (n : Nat) (s : State) : (observe n s).final = s.afterEdges n := by
  induction n generalizing s with
  | zero => rfl
  | succ n ih => rw [observe_succ, afterEdges_succ, ← ih]

theorem observe_outs (n : Nat) (s : State) :
    (observe n s).outs = (List.range n).map fun j => (s.afterEdges (j + 1)).out := by
  induction n generalizing s with
  | zero => rfl
  | succ n ih => rw [observe_succ, List.range_succ_eq_map, List.map_cons, List.map_map, ih]; rfl

theorem observe_irqEdges (n : Nat) (s : State) : (observe n s).irqEdges = edgesWith (·.wdt.irq) n s := by
  induction n generalizing s with
  | zero => rfl
  | succ n ih => rw [observe_succ, edgesWith, ← ih]

theorem observe_rstReqEdges (n : Nat) (s : State) : (observe n s).rstReqEdges = edgesWith (·.wdt.rstReq) n s := by
  induction n generalizing s with
  | zero => rfl
  | succ n ih => rw [observe_succ, edgesWith, ← ih]

/-- The edges with a pin at 1, in the words of R112: counted from 1, each named by its run. -/
theorem mem_edgesWith_iff_run {pin : State → Bool} {n k : Nat} :
    k ∈ edgesWith pin n s ↔
      ∃ (j : Nat) (t : State), 1 ≤ j ∧ j ≤ n ∧ run j s = .next t ∧ k = s.edge + j ∧ pin t = true := by
  rw [mem_edgesWith]
  constructor
  · rintro ⟨j, hj, hk, hpin⟩
    exact ⟨j + 1, _, Nat.le_add_left 1 j, hj, run_eq _ s, hk, hpin⟩
  · rintro ⟨j, t, h1, hj, ht, hk, hpin⟩
    obtain rfl := run_eq_iff.1 ht
    obtain ⟨i, rfl⟩ := Nat.exists_eq_add_of_le' h1
    exact ⟨i, hj, hk, hpin⟩

/-- Settles O51, from the recursion of `observe`. -/
theorem runLogListsTheEdgesOfEachPin : Obligations.RunLogListsTheEdgesOfEachPin := by
  refine fun s n => ⟨by rw [observe_final, run_eq], by simp [observe_outs], fun j t hj ht => ?_, fun k => ?_, fun k => ?_⟩
  · obtain rfl := run_eq_iff.1 ht
    simp [observe_outs, hj]
  · rw [observe_irqEdges]; exact mem_edgesWith_iff_run
  · rw [observe_rstReqEdges]; exact mem_edgesWith_iff_run

end Sys2Proof.Machine
end
